-- ==== Sys2Proof/Word.lean ====
section
/-! DEFINITION. The value types of the machine: bytes, 16-bit words, 12-bit addresses,
nibbles and register numbers (spec/00_scope.md R5, spec/30_encoding.md R63). -/

namespace Sys2Proof

/-- An 8-bit value: a register, a timer, a memory byte, the `kk` field. -/
abbrev Byte := BitVec 8

/-- A 16-bit value: `pc`, `I`, a stack entry, an address, an instruction word. -/
abbrev Word := BitVec 16

/-- The 12-bit `nnn` field. -/
abbrev Addr := BitVec 12

/-- The 4-bit `n` field. -/
abbrev Nibble := BitVec 4

/-- A general register number, 0 to 15 (10_state.md R10). -/
abbrev Reg := Fin 16

/-- A keypad symbol, 0 to 15 (60_exceptions.md R238). -/
abbrev Key := Fin 16

end Sys2Proof
end

