-- ==== Sys2Proof/Config.lean ====
section
/-! DEFINITION. What an implementation fixes (spec/00_scope.md R4), the default font
(spec/20_memory.md R43), and the free values of the model. -/

namespace Sys2Proof

/-- `ADDR_OOR_POLICY`: what a memory access above `0xFFF` does (20_memory.md R48, R49). -/
inductive AddrPolicy where
  | fault
  | wrap12
deriving DecidableEq, Repr

/-- The parameters a step consults, each with the default of 00_scope.md R4. They stand in State
and no step changes them (log 1). -/
structure Config where
  /-- `QUIRK_LOGIC_CLEARS_VF` (44_alu.md R142). -/
  logicClearsVF : Bool := true
  /-- `QUIRK_VF_DEST_SUPPRESS` (44_alu.md R140, R141). -/
  vfDestSuppress : Bool := true
  /-- `ADDR_OOR_POLICY` (20_memory.md R48, R49). -/
  addrPolicy : AddrPolicy := .fault
deriving DecidableEq, Repr

/-- `draw_byte()`: the byte the `k`-th free draw of the machine gives (46_random.md R170).
A FREE VALUE: no proof can see what it is. DESIGN CHOICE, log 9. -/
opaque Config.drawByte : Nat → Byte

/-- `KEY_OOR`: the answer of a key test for a value of 16 or more, at the `k`-th free draw
(48_keypad_skip.md R190). A FREE VALUE. DESIGN CHOICE, log 10. -/
opaque Config.keyOor : Nat → Byte → Bool

/-- The glyphs of the digits 0 to 7 (20_memory.md R43). PRESUMED by the spec itself (G2), log 4. -/
def Config.fontLow : List Byte :=
  [0xF0, 0x90, 0x90, 0x90, 0xF0] ++ [0x20, 0x60, 0x20, 0x20, 0x70] ++
  [0xF0, 0x10, 0xF0, 0x80, 0xF0] ++ [0xF0, 0x10, 0xF0, 0x10, 0xF0] ++
  [0x90, 0x90, 0xF0, 0x10, 0x10] ++ [0xF0, 0x80, 0xF0, 0x10, 0xF0] ++
  [0xF0, 0x80, 0xF0, 0x90, 0xF0] ++ [0xF0, 0x10, 0x20, 0x40, 0x40]

/-- The glyphs of the digits 8 to F (20_memory.md R43). PRESUMED by the spec itself (G2), log 4. -/
def Config.fontHigh : List Byte :=
  [0xF0, 0x90, 0xF0, 0x90, 0xF0] ++ [0xF0, 0x90, 0xF0, 0x10, 0xF0] ++
  [0xF0, 0x90, 0xF0, 0x90, 0x90] ++ [0xE0, 0x90, 0xE0, 0x90, 0xE0] ++
  [0xF0, 0x80, 0x80, 0x80, 0xF0] ++ [0xE0, 0x90, 0x90, 0x90, 0xE0] ++
  [0xF0, 0x80, 0xF0, 0x80, 0xF0] ++ [0xF0, 0x80, 0xF0, 0x80, 0x80]

/-- The default of `FONT[0..79]`. -/
def Config.defaultFont : List Byte := Config.fontLow ++ Config.fontHigh

end Sys2Proof
end

