-- ==== Sys2Proof/Machine/State.lean ====
section
/-! DEFINITION. The state of the machine: everything spec/ gives it, its inputs and outputs
(INVENTORY.md, State), and the state right after reset. -/

namespace Sys2Proof.Machine

/-- `Mem`, in canonical form: addresses strictly rising, no entry equal to what an unlisted address
reads as (Machine/Memory.lean, log 20). -/
abbrev Memory := List Host.Cell

/-- A column of the grid, 0 to 63. -/
abbrev Column := Fin 64

/-- A row of the grid, 0 to 31. -/
abbrev GridRow := Fin 32

/-- A point `(px, py)` of the grid. -/
abbrev Point := Column × GridRow

/-- `Pix`: 32 rows of 64 cells (10_state.md R24). -/
abbrev Grid := Vector (Vector Bool 64) 32

/-- A record of the observer's stream (60_exceptions.md R220). -/
inductive Report where
  | unknownInstruction (w : Word)
  | stackOverflow
  | stackUnderflow
  | sysIgnored (nnn : Addr)
  | addressFault (a : Word)
deriving DecidableEq, Repr

/-- A transaction the core issues on the Display Surface (60_exceptions.md R236, R237). -/
inductive DisplayOp where
  | clear
  | present
  | getPixel (p : Point)
  | setPixel (p : Point) (on : Bool)
deriving DecidableEq, Repr

/-- Why the core has stopped (60_exceptions.md R234). -/
inductive HaltReason where
  | quit
  | addressFault
deriving DecidableEq, Repr

/-- `run`, with `kx` held by the waiting state (10_state.md R26, R27; log 16). -/
inductive RunState where
  | running
  | awaitingKey (kx : Reg)
  | halted (reason : HaltReason)
deriving DecidableEq, Repr

/-- What moves next: the kinds of step of 00_scope.md R8, (a) to (e) in order (log 6). -/
inductive Turn where
  | core
  | tick
  | keyPress (s : Key)
  | quit
  | heldKeys (held : Vector Bool 16)
deriving DecidableEq, Repr

/-- The state. Fields keep the spec's names. -/
structure State where
  /-- `V[0..15]` (10_state.md R10). -/
  V : Vector Byte 16
  /-- `I` (R17). -/
  I : Word
  /-- `pc` (R14). -/
  pc : Word
  /-- `sp`, 0 to 16 (R19, R20). -/
  sp : Fin 17
  /-- `stack[0..15]` (R19). -/
  stack : Vector Word 16
  /-- `DT` (R22). -/
  DT : Byte
  /-- `ST` (R22). -/
  ST : Byte
  /-- `Mem` (R23). -/
  mem : Memory
  /-- `Pix` (R24). -/
  pix : Grid
  /-- `run` and `kx` (R26, R27). -/
  run : RunState
  /-- The observer's stream, oldest first (60_exceptions.md R220; log 14). -/
  trace : List Report
  /-- The transactions issued on the Display Surface, oldest first (R236, R237; log 14). -/
  display : List DisplayOp
  /-- Input: the held-key state of the Input Surface (R238; log 8). -/
  keys : Vector Bool 16
  /-- Input: the turns to come; past its end every turn is the core's (R8, R227; log 6, 7). -/
  schedule : List Turn
  /-- The model's own: how many free values have been drawn (log 9, 10). -/
  draws : Nat
  /-- The parameters (00_scope.md R4); no step changes them (log 1). -/
  cfg : Config
deriving DecidableEq, Repr

/-- Why the machine is stuck. -/
inductive Fault where
  /-- Raised by `step`, by no instruction, when `run` is `Halted(reason)`: "terminal: no
  instruction step, no tick, no key delivery" (60_exceptions.md R234; log 12). Safe: the spec gives
  a halted core no next state. -/
  | halted (reason : HaltReason)
deriving DecidableEq, Repr

/-- Why the model gives no meaning. -/
inductive Refusal where
  /-- Raised by an arm of `exec` whose instruction has no meaning yet; no arm raises it. Safe: it
  stops. -/
  | notModelled (mnemonic : String)
deriving DecidableEq, Repr

/-- The outcome of a step or a meaning. -/
abbrev Result := Host.Outcome State Fault Refusal

/-- The state right after reset (10_state.md R31): `pc = 0x200`, the stack empty, Running, memory
as an unlisted address reads (font, then zeros), all else zero by the spec's decision D2 (log 3).
The inputs' part is the model's: no key held, no turn scheduled, no free value drawn yet
(DESIGN CHOICE, log 7, 8, 9). -/
def State.reset : State where
  V := Vector.replicate 16 0
  I := 0
  pc := 0x200
  sp := 0
  stack := Vector.replicate 16 0
  DT := 0
  ST := 0
  mem := []
  pix := Vector.replicate 32 (Vector.replicate 64 false)
  run := .running
  trace := []
  display := []
  keys := Vector.replicate 16 false
  schedule := []
  draws := 0
  cfg := {}

end Sys2Proof.Machine
end

