-- ==== Sys2Proof/Machine/Memory.lean ====
section
/-! DEFINITION. The 4096-byte memory as a canonical list of cells: reading one byte, writing one
byte, writing a run of bytes (spec/20_memory.md R40, R47). Keys are cell numbers; how a 16-bit
address names a cell is Machine/Ops.lean. -/

namespace Sys2Proof.Machine

/-- `MEM_SIZE` (00_scope.md R4). -/
def memSize : Nat := 4096

/-- What an address nothing has written reads as: the font at `0x000`..`0x04F`, zero elsewhere
(20_memory.md R41, R43; 10_state.md R31). The font bytes are the spec's default (log 4), the zeros
its decision D2 (log 3). -/
def Memory.unlisted (a : Nat) : Byte := Config.defaultFont.getD a 0

/-- `Mem[a]`. -/
def Memory.read : Memory → Nat → Byte
  | [], a => Memory.unlisted a
  | c :: m, a => if c.1 = a then c.2 else Memory.read m a

/-- A cell put before the first cell with a higher address. -/
def Memory.insert (c : Host.Cell) : Memory → Memory
  | [] => [c]
  | d :: m => if c.1 < d.1 then c :: d :: m else d :: Memory.insert c m

/-- `Mem[a] <- b`: the old cell goes, and the new one is listed unless `b` is what `a` reads as
unlisted. -/
def Memory.write (m : Memory) (a : Nat) (b : Byte) : Memory :=
  let rest := m.filter fun c => c.1 != a
  if b = Memory.unlisted a then rest else Memory.insert (a, b) rest

/-- Bytes written at `a`, `a + 1`, … in order. -/
def Memory.writeList : Memory → Nat → List Byte → Memory
  | m, _, [] => m
  | m, a, b :: bs => Memory.writeList (m.write a b) (a + 1) bs

/-- The canonical form: addresses strictly rising, all below `MEM_SIZE`, no cell equal to what its
address reads as unlisted. -/
abbrev Memory.wf (m : Memory) : Prop :=
  m.Pairwise (fun c d => c.1 < d.1) ∧ ∀ c ∈ m, c.1 < memSize ∧ c.2 ≠ Memory.unlisted c.1

end Sys2Proof.Machine
end

