-- ==== Sys2Proof/Machine/Ops.lean ====
section
/-! DEFINITION. The named operations the instructions share: registers, the program counter, the
call stack, reports, the AddressFault, memory accesses, the pixel grid, the keys, the free draws. -/

namespace Sys2Proof.Machine

/-! ## Widening (spec/00_scope.md R6: zero extension is the only widening) -/

/-- `zext_16` of a byte. -/
def zextByte (b : Byte) : Word := b.setWidth 16

/-- `zext_16` of a 12-bit address (30_encoding.md R65). -/
def zextAddr (a : Addr) : Word := a.setWidth 16

/-! ## Registers (10_state.md R10: all sixteen hold what was last written) -/

/-- `FLAG_REG`, register 15 (10_state.md R12). -/
def flagReg : Reg := 15

/-- Read `V[r]`. -/
def State.reg (s : State) (r : Reg) : Byte := s.V[r]

/-- `V[r] <- b`. -/
def State.setReg (s : State) (r : Reg) (b : Byte) : State := { s with V := s.V.set r b }

/-- The bytes `V[0]`, …, `V[x]`. -/
def State.regsUpTo (s : State) (x : Reg) : List Byte := s.V.toList.take (x.val + 1)

/-- Bytes written to registers `k`, `k + 1`, … in order; a number above 15 is no register. -/
def State.setRegsFrom (s : State) : Nat → List Byte → State
  | _, [] => s
  | k, b :: bs => State.setRegsFrom (if h : k < 16 then s.setReg ⟨k, h⟩ b else s) (k + 1) bs

/-! ## The program counter (10_state.md R15: modulo 2^16) -/

/-- `pc <- pc + 2`, at fetch (30_encoding.md R60). -/
def State.advance (s : State) : State := { s with pc := s.pc + 2 }

/-- `pc <- target`. -/
def State.jumpTo (s : State) (target : Word) : State := { s with pc := target }

/-- A skip, taken when `c` (42_skip.md R119). -/
def State.skipIf (s : State) (c : Bool) : State := if c then { s with pc := s.pc + 2 } else s

/-! ## Reports and the AddressFault -/

/-- `raise E(info)`: one record appended, nothing else (60_exceptions.md R220). -/
def State.report (s : State) (r : Report) : State := { s with trace := s.trace ++ [r] }

/-- The number of a report at the observer port (60_exceptions.md R220, the table). -/
def Report.code : Report → Nat
  | .unknownInstruction _ => 1
  | .stackOverflow => 2
  | .stackUnderflow => 3
  | .sysIgnored _ => 4
  | .addressFault _ => 5

/-- `raise AddressFault(a)` and halt: the one condition that stops the core (20_memory.md R48,
60_exceptions.md R224). No register, memory byte or pixel changes, and `pc` stays where it is:
advanced when an instruction raises it, unadvanced when the fetch does (log 2). -/
def State.addressFault (s : State) (a : Word) : State :=
  { s.report (.addressFault a) with run := .halted .addressFault }

/-- A word that matches no operation: reported, otherwise a no-op (30_encoding.md R76). -/
def State.unknownInstruction (s : State) (w : Word) : State := s.report (.unknownInstruction w)

/-! ## The call stack (41_jump_call.md R111, 40_family0_system.md R101) -/

/-- Push `pc` and jump; with sixteen live entries, report and ignore the call. -/
def State.callTo (s : State) (target : Word) : State :=
  if h : s.sp.val < 16 then
    { s with stack := s.stack.set s.sp.val s.pc h, sp := ⟨s.sp.val + 1, by omega⟩, pc := target }
  else s.report .stackOverflow

/-- Pop into `pc`; with no live entry, report and ignore the return. -/
def State.returnFrom (s : State) : State :=
  if h : 0 < s.sp.val then
    { s with sp := ⟨s.sp.val - 1, by omega⟩, pc := s.stack[s.sp.val - 1]'(by omega) }
  else s.report .stackUnderflow

/-! ## Memory accesses (20_memory.md R47 to R49) -/

/-- The `n` addresses from `a` up, each sum in 16 bits (20_memory.md R47). -/
def span (a : Word) (n : Nat) : List Word := (List.range n).map fun k => a + BitVec.ofNat 16 k

/-- Whether an address does not exist: above `0x0FFF`, unless the policy wraps it (R48, R49). -/
def outOfRange (p : AddrPolicy) (a : Word) : Bool := p == .fault && decide (memSize ≤ a.toNat)

/-- The first address, in access order, that does not exist. -/
def firstOutOfRange (p : AddrPolicy) (as : List Word) : Option Word := as.find? (outOfRange p)

/-- The effect `t` of an instruction that makes the accesses `as`: the range check comes before
any effect, and a failed check leaves only the AddressFault (20_memory.md R48). -/
def State.accessing (s : State) (as : List Word) (t : State) : Result :=
  match firstOutOfRange s.cfg.addrPolicy as with
  | some a => .next (s.addressFault a)
  | none => .next t

/-- The cell an address names: itself below `0x1000`; modulo 4096 above, which only policy wrap12
reaches (20_memory.md R49; log 19). -/
def cellOf (a : Word) : Nat := a.toNat % memSize

/-- `MemRead(a, 1)`. -/
def State.readByte (s : State) (a : Word) : Byte := s.mem.read (cellOf a)

/-- `MemWrite(a, 1, b)`. -/
def State.writeByte (s : State) (a : Word) (b : Byte) : State :=
  { s with mem := s.mem.write (cellOf a) b }

/-- The bytes at `a`, `a + 1`, …, `n` of them. -/
def State.readBytes (s : State) (a : Word) (n : Nat) : List Byte := (span a n).map s.readByte

/-- Bytes stored at `a`, `a + 1`, … in order. -/
def State.writeBytes (s : State) : Word → List Byte → State
  | _, [] => s
  | a, b :: bs => State.writeBytes (s.writeByte a b) (a + 1) bs

/-! ## The Display Surface (60_exceptions.md R236, R237) -/

/-- A transaction recorded on the display port. -/
def State.issue (s : State) (op : DisplayOp) : State := { s with display := s.display ++ [op] }

/-- `Pix[px][py]`. -/
def State.pixel (s : State) (p : Point) : Bool := s.pix[p.2][p.1]

/-- `SetPixel`, with its record. -/
def State.setPixel (s : State) (p : Point) (on : Bool) : State :=
  { s.issue (.setPixel p on) with pix := s.pix.set p.2 (s.pix[p.2].set p.1 on) }

/-- `ClearPixels()`, with its record. -/
def State.clearPixels (s : State) : State :=
  { s.issue .clear with pix := Vector.replicate 32 (Vector.replicate 64 false) }

/-- `Present()`: an output event only (R237). -/
def State.present (s : State) : State := s.issue .present

/-- `sound_active` (60_exceptions.md R243). -/
def State.soundActive (s : State) : Bool := s.ST != 0

/-! ## Inputs of an instruction -/

/-- `KeyDown(k)`, the held-key state at this moment (60_exceptions.md R238). -/
def State.keyDown (s : State) (k : Key) : Bool := s.keys[k]

/-- `pressed(b)` and the state after the test (48_keypad_skip.md R190): for a value of 16 or more
the answer is a fresh free value (log 10). -/
def State.pressed (s : State) (b : Byte) : Bool × State :=
  if h : b.toNat < 16 then (s.keyDown ⟨b.toNat, h⟩, s)
  else (Config.keyOor s.draws b, { s with draws := s.draws + 1 })

/-- `draw_byte()` and the state after the draw (46_random.md R170; log 9). -/
def State.drawByte (s : State) : Byte × State :=
  (Config.drawByte s.draws, { s with draws := s.draws + 1 })

end Sys2Proof.Machine
end

