-- ==== Sys2Proof/Machine/Flags.lean ====
section
/-! DEFINITION. The results and flags of family 8 and the two ways it writes them
(spec/44_alu.md R140 to R151), and the collision flag of DRW (spec/47_draw.md R185). Results are
computed exactly on natural numbers, then narrowed. -/

namespace Sys2Proof.Machine

/-- A flag as `V[15]` holds it: the byte 0 or 1 (10_state.md R12). -/
def flagByte (c : Bool) : Byte := if c then 1 else 0

/-- Result and carry of `a + b` (44_alu.md R147). -/
def addFlag (a b : Byte) : Byte × Bool :=
  (BitVec.ofNat 8 (a.toNat + b.toNat), decide (255 < a.toNat + b.toNat))

/-- Result and no-borrow of `a - b` (44_alu.md R148). -/
def subFlag (a b : Byte) : Byte × Bool :=
  (BitVec.ofNat 8 (256 + a.toNat - b.toNat), decide (b.toNat ≤ a.toNat))

/-- Result and bit out of `b >> 1` (44_alu.md R150). -/
def shrFlag (b : Byte) : Byte × Bool := (BitVec.ofNat 8 (b.toNat / 2), b.getLsbD 0)

/-- Result and bit out of `b << 1` (44_alu.md R151). -/
def shlFlag (b : Byte) : Byte × Bool := (BitVec.ofNat 8 (b.toNat * 2), b.getLsbD 7)

/-- Steps (3) and (4) of 44_alu.md R140: the result, unless it is suppressed, then the flag. -/
def State.writeFlagged (s : State) (x : Reg) (r : Byte × Bool) : State :=
  (if x = flagReg ∧ s.cfg.vfDestSuppress = true then s else s.setReg x r.1).setReg flagReg
    (flagByte r.2)

/-- The order of 44_alu.md R142: the result, then the flag register cleared where the quirk says
so. -/
def State.writeLogic (s : State) (x : Reg) (r : Byte) : State :=
  if s.cfg.logicClearsVF then (s.setReg x r).setReg flagReg 0 else s.setReg x r

/-- One set, unclipped sprite bit: read the pixel, invert it, and note a collision when it was on
(47_draw.md R180, R185). -/
def State.xorPixel (s : State) (p : Point) : State :=
  let t := (s.issue (.getPixel p)).setPixel p (!s.pixel p)
  if s.pixel p then t.setReg flagReg 1 else t

end Sys2Proof.Machine
end

