-- ==== Sys2Proof/Machine/Alu.lean ====
section
/-! DEFINITION. Family 0x8: the register-register operations (spec/44_alu.md). -/

namespace Sys2Proof.Machine

/-- `LD Vx,Vy` (R143): no flag. -/
def execLdReg (x y : Reg) (s : State) : Result := .next (s.setReg x (s.reg y))

/-- `OR Vx,Vy` (R144). -/
def execOrReg (x y : Reg) (s : State) : Result := .next (s.writeLogic x (s.reg x ||| s.reg y))

/-- `AND Vx,Vy` (R145). -/
def execAndReg (x y : Reg) (s : State) : Result := .next (s.writeLogic x (s.reg x &&& s.reg y))

/-- `XOR Vx,Vy` (R146). -/
def execXorReg (x y : Reg) (s : State) : Result := .next (s.writeLogic x (s.reg x ^^^ s.reg y))

/-- `ADD Vx,Vy` (R147). -/
def execAddReg (x y : Reg) (s : State) : Result :=
  .next (s.writeFlagged x (addFlag (s.reg x) (s.reg y)))

/-- `SUB Vx,Vy` (R148). -/
def execSubReg (x y : Reg) (s : State) : Result :=
  .next (s.writeFlagged x (subFlag (s.reg x) (s.reg y)))

/-- `SUBN Vx,Vy` (R149). -/
def execSubnReg (x y : Reg) (s : State) : Result :=
  .next (s.writeFlagged x (subFlag (s.reg y) (s.reg x)))

/-- `SHR Vx,Vy` (R150): the operand shifted is `V[y]`. -/
def execShrReg (x y : Reg) (s : State) : Result := .next (s.writeFlagged x (shrFlag (s.reg y)))

/-- `SHL Vx,Vy` (R151): the operand shifted is `V[y]`. -/
def execShlReg (x y : Reg) (s : State) : Result := .next (s.writeFlagged x (shlFlag (s.reg y)))

end Sys2Proof.Machine
end

