-- ==== Sys2Proof/Machine/Operands.lean ====
section
/-! DEFINITION. Operand values computed from registers and fields (spec/30_encoding.md R65): jump
targets, index values, decimal digits, sprite points. -/

namespace Sys2Proof.Machine

/-- The target of `JP V0,addr`: `nnn + V[0]`, not reduced to 12 bits (45_index_jump.md R161). -/
def State.offsetTarget (s : State) (nnn : Addr) : Word := zextAddr nnn + zextByte (s.reg 0)

/-- `I + V[x]` modulo 2^16 (49_familyF.md R204). -/
def State.indexPlus (s : State) (x : Reg) : Word := s.I + zextByte (s.reg x)

/-- The base of the glyph of `b mod 16` (49_familyF.md R205). -/
def glyphBase (b : Byte) : Word := BitVec.ofNat 16 (5 * (b.toNat % 16))

/-- The index after a transfer of `V[0..x]`: `I + x + 1` modulo 2^16 (49_familyF.md R209). -/
def State.indexPast (s : State) (x : Reg) : Word := s.I + BitVec.ofNat 16 (x.val + 1)

/-- Hundreds, tens and ones of a byte (49_familyF.md R206). -/
def decimalDigits (b : Byte) : List Byte :=
  [BitVec.ofNat 8 (b.toNat / 100), BitVec.ofNat 8 (b.toNat / 10 % 10), BitVec.ofNat 8 (b.toNat % 10)]

/-! ## Sprite points (47_draw.md R180 to R184) -/

/-- A coordinate pair as a point of the grid; outside the grid it is clipped (47_draw.md R184). -/
def onGrid (px py : Nat) : Option Point :=
  if h : px < 64 ∧ py < 32 then some (⟨px, h.1⟩, ⟨py, h.2⟩) else none

/-- The points of the set bits of one row byte, left to right; bit `7 - c` is column `xs + c`
(47_draw.md R183; the bit order is PRESUMED by the spec itself, log 18). -/
def rowPoints (xs py : Nat) (b : Byte) : List Point :=
  (List.range 8).filterMap fun c => if b.getLsbD (7 - c) then onGrid (xs + c) py else none

/-- The points of the set, unclipped bits of a sprite, rows top to bottom. -/
def spritePoints (xs : Nat) : Nat → List Byte → List Point
  | _, [] => []
  | py, b :: rows => rowPoints xs py b ++ spritePoints xs (py + 1) rows

/-- The start column and row, of the register values before the instruction (47_draw.md R181). -/
def State.spriteStart (s : State) (x y : Reg) : Nat × Nat :=
  ((s.reg x).toNat % 64, (s.reg y).toNat % 32)

end Sys2Proof.Machine
end

