-- ==== Sys2Proof/Machine/Draw.lean ====
section
/-! DEFINITION. Family 0xD: DRW, the sprite-rendering pixel arbiter (spec/47_draw.md). -/

namespace Sys2Proof.Machine

/-- The effect of DRW once its rows may be read (R180): the start latched, the flag cleared, then
each set, unclipped bit drawn in order. -/
def State.drawSprite (s : State) (x y : Reg) (n : Nat) : State :=
  (spritePoints (s.spriteStart x y).1 (s.spriteStart x y).2 (s.readBytes s.I n)).foldl
    State.xorPixel (s.setReg flagReg 0)

/-- `DRW Vx,Vy,n` (R180): all `n` rows count as accessed, clipped or not (R182). -/
def execDrw (x y : Reg) (n : Nibble) (s : State) : Result :=
  s.accessing (span s.I n.toNat) (s.drawSprite x y n.toNat)

end Sys2Proof.Machine
end

