-- ==== Sys2Proof/Machine/Immediate.lean ====
section
/-! DEFINITION. Families 0x6, 0x7: LD Vx,byte and ADD Vx,byte (spec/43_immediate.md). -/

namespace Sys2Proof.Machine

/-- `LD Vx,byte` (R130). -/
def execLdByte (x : Reg) (kk : Byte) (s : State) : Result := .next (s.setReg x kk)

/-- `ADD Vx,byte` (R131): wraps, no flag. -/
def execAddByte (x : Reg) (kk : Byte) (s : State) : Result := .next (s.setReg x (s.reg x + kk))

end Sys2Proof.Machine
end

