-- ==== Sys2Proof/Machine/Jump.lean ====
section
/-! DEFINITION. Families 0x1, 0x2, 0xA, 0xB: JP, CALL, LD I, JP V0 (spec/41_jump_call.md,
spec/45_index_jump.md). -/

namespace Sys2Proof.Machine

/-- `JP addr` (R110). -/
def execJp (nnn : Addr) (s : State) : Result := .next (s.jumpTo (zextAddr nnn))

/-- `CALL addr` (R111). -/
def execCall (nnn : Addr) (s : State) : Result := .next (s.callTo (zextAddr nnn))

/-- `LD I,addr` (R160). -/
def execLdI (nnn : Addr) (s : State) : Result := .next { s with I := zextAddr nnn }

/-- `JP V0,addr` (R161). -/
def execJpV0 (nnn : Addr) (s : State) : Result := .next (s.jumpTo (s.offsetTarget nnn))

end Sys2Proof.Machine
end

