-- ==== Sys2Proof/Machine/Keypad.lean ====
section
/-! DEFINITION. Family 0xE: SKP and SKNP (spec/48_keypad_skip.md). -/

namespace Sys2Proof.Machine

/-- `SKP Vx` (R191). -/
def execSkp (x : Reg) (s : State) : Result :=
  .next ((s.pressed (s.reg x)).2.skipIf (s.pressed (s.reg x)).1)

/-- `SKNP Vx` (R192). -/
def execSknp (x : Reg) (s : State) : Result :=
  .next ((s.pressed (s.reg x)).2.skipIf (!(s.pressed (s.reg x)).1))

end Sys2Proof.Machine
end

