-- ==== Sys2Proof/Machine/Misc.lean ====
section
/-! DEFINITION. Family 0xF: timers, key wait, index arithmetic, font, decimal digits, register
transfer (spec/49_familyF.md). -/

namespace Sys2Proof.Machine

/-- `LD Vx,DT` (R200). -/
def execLdFromDT (x : Reg) (s : State) : Result := .next (s.setReg x s.DT)

/-- `LD Vx,K` (R201): always suspends; the register is written when the key arrives
(Machine/Events.lean). -/
def execLdKey (x : Reg) (s : State) : Result := .next { s with run := .awaitingKey x }

/-- `LD DT,Vx` (R202). -/
def execLdDT (x : Reg) (s : State) : Result := .next { s with DT := s.reg x }

/-- `LD ST,Vx` (R203). -/
def execLdST (x : Reg) (s : State) : Result := .next { s with ST := s.reg x }

/-- `ADD I,Vx` (R204): 16-bit sum, no flag. -/
def execAddI (x : Reg) (s : State) : Result := .next { s with I := s.indexPlus x }

/-- `LD F,Vx` (R205). -/
def execLdFont (x : Reg) (s : State) : Result := .next { s with I := glyphBase (s.reg x) }

/-- `LD B,Vx` (R206): `I` is not changed. -/
def execLdBcd (x : Reg) (s : State) : Result :=
  s.accessing (span s.I 3) (s.writeBytes s.I (decimalDigits (s.reg x)))

/-- `LD [I],Vx` (R207), with the index advance (R209). -/
def execStoreRegs (x : Reg) (s : State) : Result :=
  s.accessing (span s.I (x.val + 1))
    { s.writeBytes s.I (s.regsUpTo x) with I := s.indexPast x }

/-- `LD Vx,[I]` (R208), with the index advance (R209). -/
def execLoadRegs (x : Reg) (s : State) : Result :=
  s.accessing (span s.I (x.val + 1))
    { s.setRegsFrom 0 (s.readBytes s.I (x.val + 1)) with I := s.indexPast x }

end Sys2Proof.Machine
end

