-- ==== Sys2Proof/Machine/Random.lean ====
section
/-! DEFINITION. Family 0xC: RND (spec/46_random.md). -/

namespace Sys2Proof.Machine

/-- `V[x] <- r & kk` for a drawn byte `r`. -/
def State.maskInto (s : State) (x : Reg) (kk r : Byte) : State := s.setReg x (r &&& kk)

/-- `RND Vx,byte` (R170): `r` is a free value, fresh at every execution (log 9). -/
def execRnd (x : Reg) (kk : Byte) (s : State) : Result :=
  .next (s.drawByte.2.maskInto x kk s.drawByte.1)

end Sys2Proof.Machine
end

