-- ==== Sys2Proof/Machine/Skip.lean ====
section
/-! DEFINITION. Families 0x3, 0x4, 0x5, 0x9: the conditional skips (spec/42_skip.md). -/

namespace Sys2Proof.Machine

/-- `SE Vx,byte` (R120). -/
def execSeByte (x : Reg) (kk : Byte) (s : State) : Result := .next (s.skipIf (s.reg x == kk))

/-- `SNE Vx,byte` (R121). -/
def execSneByte (x : Reg) (kk : Byte) (s : State) : Result := .next (s.skipIf (s.reg x != kk))

/-- `SE Vx,Vy` (R122). -/
def execSeReg (x y : Reg) (s : State) : Result := .next (s.skipIf (s.reg x == s.reg y))

/-- `SNE Vx,Vy` (R123). -/
def execSneReg (x y : Reg) (s : State) : Result := .next (s.skipIf (s.reg x != s.reg y))

end Sys2Proof.Machine
end

