-- ==== Sys2Proof/Machine/System.lean ====
section
/-! DEFINITION. Family 0x0: CLS, RET, SYS (spec/40_family0_system.md). -/

namespace Sys2Proof.Machine

/-- `CLS` (R100): one `clear()` and no `present()`. -/
def execCls (s : State) : Result := .next s.clearPixels

/-- `RET` (R101). -/
def execRet (s : State) : Result := .next s.returnFrom

/-- `SYS addr` (R102): logged only. -/
def execSys (nnn : Addr) (s : State) : Result := .next (s.report (.sysIgnored nnn))

end Sys2Proof.Machine
end

