-- ==== Sys2Proof/Syntax.lean ====
section
/-! DEFINITION. The instructions, one constructor per row of spec/opcode_table.json, in the
table's order. -/

namespace Sys2Proof

/-- The 35 instructions (30_encoding.md R74). The `n` of `seReg` and `sneReg` is the nibble of
`5xyn` and `9xyn`, which the execute phase ignores (R72, R75; log 17). -/
inductive Instr where
  | cls
  | ret
  | sys (nnn : Addr)
  | jp (nnn : Addr)
  | call (nnn : Addr)
  | seByte (x : Reg) (kk : Byte)
  | sneByte (x : Reg) (kk : Byte)
  | seReg (x y : Reg) (n : Nibble)
  | ldByte (x : Reg) (kk : Byte)
  | addByte (x : Reg) (kk : Byte)
  | ldReg (x y : Reg)
  | orReg (x y : Reg)
  | andReg (x y : Reg)
  | xorReg (x y : Reg)
  | addReg (x y : Reg)
  | subReg (x y : Reg)
  | shrReg (x y : Reg)
  | subnReg (x y : Reg)
  | shlReg (x y : Reg)
  | sneReg (x y : Reg) (n : Nibble)
  | ldI (nnn : Addr)
  | jpV0 (nnn : Addr)
  | rnd (x : Reg) (kk : Byte)
  | drw (x y : Reg) (n : Nibble)
  | skp (x : Reg)
  | sknp (x : Reg)
  | ldFromDT (x : Reg)
  | ldKey (x : Reg)
  | ldDT (x : Reg)
  | ldST (x : Reg)
  | addI (x : Reg)
  | ldFont (x : Reg)
  | ldBcd (x : Reg)
  | storeRegs (x : Reg)
  | loadRegs (x : Reg)
deriving DecidableEq, Repr

end Sys2Proof
end

