-- ==== Sys2Proof/Machine/Events.lean ====
section
/-! DEFINITION. The turns that are not the core's: timer tick, key press, quit, held-key change
(spec/60_exceptions.md R226 to R233). -/

namespace Sys2Proof.Machine

/-- One decrement, floored at 0 (60_exceptions.md R228). -/
def countDown (t : Byte) : Byte := if t = 0 then 0 else t - 1

/-- A timer tick (60_exceptions.md R228), the same while a key is awaited (R230). -/
def State.tick (s : State) : State :=
  { s with DT := countDown s.DT, ST := countDown s.ST }.present

/-- A key press: written and consumed by a waiting core (60_exceptions.md R232), not delivered to a
running one (R239; log 11). -/
def State.keyPress (s : State) (k : Key) : State :=
  match s.run with
  | .awaitingKey kx => { s.setReg kx (BitVec.ofNat 8 k.val) with run := .running }
  | .running | .halted _ => s

/-- The quit signal (60_exceptions.md R233). -/
def State.quit (s : State) : State := { s with run := .halted .quit }

/-- The Input Surface changes the held-key state (60_exceptions.md R238; log 8). -/
def State.holdKeys (s : State) (held : Vector Bool 16) : State := { s with keys := held }

end Sys2Proof.Machine
end

