-- ==== Sys2Proof/Machine/Fetch.lean ====
section
/-! DEFINITION. Fetching an instruction's word, and placing one where it is fetched
(spec/30_encoding.md R61). -/

namespace Sys2Proof.Machine

/-- The two addresses of a fetch (30_encoding.md R61). -/
def State.fetchSpan (s : State) : List Word := span s.pc 2

/-- The big-endian word at `[pc, pc+1]` (20_memory.md R50). -/
def State.fetchWord (s : State) : Word := wordOfBytes (s.readByte s.pc) (s.readByte (s.pc + 1))

/-- The fetch address that does not exist, if there is one (20_memory.md R48). -/
def State.fetchFault (s : State) : Option Word := firstOutOfRange s.cfg.addrPolicy s.fetchSpan

/-- The schedule with the core's turn first; one that has it already is kept. -/
def coreFirst : List Turn → List Turn
  | [] => []
  | .core :: ts => .core :: ts
  | t :: ts => .core :: t :: ts

/-- A state that can fetch: `pc` kept unless its fetch would fault (then the reset entry point),
Running, the core's turn next (log 23). -/
def State.readyToFetch (s : State) : State :=
  { s with
    pc := if s.fetchFault.isSome then 0x200 else s.pc
    run := .running
    schedule := coreFirst s.schedule }

/-- An instruction's bytes stored at `pc`. -/
def State.placeBytes (s : State) (bs : List Byte) : State := s.writeBytes s.pc bs

end Sys2Proof.Machine
end

