-- ==== Sys2Proof/Machine/Cycle.lean ====
section
/-! DEFINITION. The instruction step and the turns of the schedule (spec/30_encoding.md R60,
spec/00_scope.md R8). -/

namespace Sys2Proof.Machine

/-- The execute phase of a fetched word, `pc` already advanced (30_encoding.md R60). -/
def State.execWord (s : State) (w : Word) : Result :=
  match decode w with
  | .ok i => exec i s
  | .error _ => .next (s.unknownInstruction w)

/-- An instruction step: fetch, advance, decode, execute (30_encoding.md R60, R61). A fetch out of
range leaves `pc` unadvanced (20_memory.md R48). -/
def State.instrStep (s : State) : Result :=
  match s.fetchFault with
  | some a => .next (s.addressFault a)
  | none => s.advance.execWord s.fetchWord

/-- The core's turn: an instruction step when Running; while a key is awaited no instruction step is
enabled and the core idles (60_exceptions.md R231; log 7). -/
def State.coreTurn (s : State) : Result :=
  match s.run with
  | .running => s.instrStep
  | .awaitingKey _ => .next s
  | .halted r => .fault (.halted r)

/-- One turn. -/
def State.turn (s : State) : Turn → Result
  | .core => s.coreTurn
  | .tick => .next s.tick
  | .keyPress k => .next (s.keyPress k)
  | .quit => .next s.quit
  | .heldKeys held => .next (s.holdKeys held)

end Sys2Proof.Machine
end

