-- ==== Sys2Proof/Machine/Step.lean ====
section
/-! DEFINITION. One step of the machine: the next turn of the schedule (spec/00_scope.md R8). -/

namespace Sys2Proof.Machine

/-- One step: a halted core is stuck (60_exceptions.md R234; log 12); otherwise the first turn of the
schedule moves, and the core moves when none is left (log 6, 7). -/
def step (s : State) : Host.Outcome State Fault Refusal :=
  match s.run with
  | .halted r => .fault (.halted r)
  | .running | .awaitingKey _ =>
    match s.schedule with
    | [] => s.coreTurn
    | t :: ts => { s with schedule := ts }.turn t

/-- `s` with the instruction whose bits are `w` stored where the very next step fetches. -/
def State.withFetchWord (s : State) (nbits w : Nat) : State :=
  s.readyToFetch.placeBytes (tableWordBytes nbits w)

end Sys2Proof.Machine
end

