-- ==== Sys2Proof/Machine/Load.lean ====
section
/-! DEFINITION. Reset and program load, one event (spec/70_reset_and_hazards.md R260 to R263). The
reading of the image from storage is outside the core (spec/00_scope.md R3). -/

namespace Sys2Proof.Machine

/-- Why an image is refused before any instruction executes (60_exceptions.md R249); `Unreadable`
belongs to storage and cannot arise from bytes. -/
inductive LoadError where
  | empty
  | tooLarge
deriving DecidableEq, Repr

/-- `PROG_BASE` (00_scope.md R4). -/
def progBase : Nat := 0x200

/-- `PROG_MAX` (70_reset_and_hazards.md R261). -/
def progMax : Nat := memSize - progBase

/-- The reset event: `fill` is `RESET_FILL`, the values of everything the source gives no reset
value for, `font` the 80 bytes of `FONT`, `image` the program (70_reset_and_hazards.md R260, R261;
log 13). The stack is empty, the core runs from `0x200`, no report has been made. -/
def State.load (fill : State) (font : Vector Byte 80) (image : List Byte) : Except LoadError State :=
  if image.length = 0 then .error .empty
  else if progMax < image.length then .error .tooLarge
  else .ok
    { fill with
      pc := BitVec.ofNat 16 progBase
      sp := 0
      run := .running
      trace := []
      display := []
      mem := (fill.mem.writeList 0 font.toList).writeList progBase image }

end Sys2Proof.Machine
end

