-- ==== Sys2Proof/Safety.lean ====
section
/-! DEFINITION. The terms claims use: invariants of a run, the parts of the state an instruction
may write, and what it means to keep everything else. -/

namespace Sys2Proof.Machine

/-! ## Invariants -/

/-- Memory keeps its canonical form (log 20). -/
def State.memCanonical (s : State) : Prop := s.mem.wf

/-- An AddressFault is on record exactly when the core has halted for one
(spec/60_exceptions.md R224: the only condition that stops the core). -/
def State.faultIsHalt (s : State) : Prop :=
  (∃ a, Report.addressFault a ∈ s.trace) ↔ s.run = .halted .addressFault

/-- The bound of spec/10_state.md R15: under policy fault `pc` is at most `0x10FE`, and the call
stack holds only addresses that can follow a fetched CALL. -/
def State.pcBounded (s : State) : Prop :=
  s.cfg.addrPolicy = .fault →
    s.pc.toNat ≤ 0x10FE ∧ ∀ k : Fin 16, (s.stack[k]).toNat ≤ 0x1000

/-- "No stack error" as a property of the report trace (spec/70_reset_and_hazards.md R274). -/
def State.noStackError (s : State) : Prop :=
  Report.stackOverflow ∉ s.trace ∧ Report.stackUnderflow ∉ s.trace

/-! ## Frames -/

/-- The parts of the state other than the general registers. The held keys, the schedule and the
parameters are in none of them: no instruction writes those. -/
inductive Part where
  | index
  | pc
  | stack
  | delayTimer
  | soundTimer
  | memory
  | pixels
  | run
  | trace
  | display
  | draws
deriving DecidableEq, Repr

/-- `t` differs from `s` at most in the registers `regs` and the parts `parts`. Memory and pixels
are compared through reading one byte, one pixel. -/
structure Frame (regs : List Reg) (parts : List Part) (s t : State) : Prop where
  regs : ∀ r, r ∉ regs → t.reg r = s.reg r
  index : Part.index ∉ parts → t.I = s.I
  pc : Part.pc ∉ parts → t.pc = s.pc
  stack : Part.stack ∉ parts → t.sp = s.sp ∧ t.stack = s.stack
  delayTimer : Part.delayTimer ∉ parts → t.DT = s.DT
  soundTimer : Part.soundTimer ∉ parts → t.ST = s.ST
  memory : Part.memory ∉ parts → ∀ a, t.mem.read a = s.mem.read a
  pixels : Part.pixels ∉ parts → ∀ p, t.pixel p = s.pixel p
  run : Part.run ∉ parts → t.run = s.run
  trace : Part.trace ∉ parts → t.trace = s.trace
  display : Part.display ∉ parts → t.display = s.display
  draws : Part.draws ∉ parts → t.draws = s.draws
  keys : t.keys = s.keys
  schedule : t.schedule = s.schedule
  cfg : t.cfg = s.cfg

/-- Every register number up to `x`. -/
def regsThrough (x : Reg) : List Reg := (List.finRange 16).filter fun r => r ≤ x

/-- The general registers an instruction may write (spec/10_state.md R11, R13). -/
def destRegs : Instr → List Reg
  | .ldByte x _ | .addByte x _ | .ldReg x _ | .rnd x _ | .ldFromDT x => [x]
  | .orReg x _ | .andReg x _ | .xorReg x _ => [x, flagReg]
  | .addReg x _ | .subReg x _ | .subnReg x _ | .shrReg x _ | .shlReg x _ => [x, flagReg]
  | .drw _ _ _ => [flagReg]
  | .loadRegs x => regsThrough x
  | .cls | .ret | .sys _ | .jp _ | .call _ | .seByte _ _ | .sneByte _ _ | .seReg _ _ _
  | .sneReg _ _ _ | .ldI _ | .jpV0 _ | .skp _ | .sknp _ | .ldKey _ | .ldDT _ | .ldST _ | .addI _
  | .ldFont _ | .ldBcd _ | .storeRegs _ => []

/-- The other parts an instruction may write (spec/10_state.md R15, R17, R19, R22, R24, R26;
spec/20_memory.md R45; spec/60_exceptions.md R220). -/
def destParts : Instr → List Part
  | .cls => [.pixels, .display]
  | .ret | .call _ => [.pc, .stack, .trace]
  | .sys _ => [.trace]
  | .jp _ | .jpV0 _ | .seByte _ _ | .sneByte _ _ | .seReg _ _ _ | .sneReg _ _ _ => [.pc]
  | .ldByte _ _ | .addByte _ _ | .ldReg _ _ | .orReg _ _ | .andReg _ _ | .xorReg _ _ | .addReg _ _
  | .subReg _ _ | .subnReg _ _ | .shrReg _ _ | .shlReg _ _ | .ldFromDT _ => []
  | .ldI _ | .addI _ | .ldFont _ => [.index]
  | .rnd _ _ => [.draws]
  | .drw _ _ _ => [.pixels, .display, .run, .trace]
  | .skp _ | .sknp _ => [.pc, .draws]
  | .ldKey _ => [.run]
  | .ldDT _ => [.delayTimer]
  | .ldST _ => [.soundTimer]
  | .ldBcd _ => [.memory, .run, .trace]
  | .storeRegs _ => [.memory, .index, .run, .trace]
  | .loadRegs _ => [.index, .run, .trace]

end Sys2Proof.Machine
end

