-- ==== Sys2Proof/Certificates/Slice0/Obligations.lean ====
section
/-! DEFINITION. The statements for the provers. Each says which rule of spec/ it formalises; what
rests on a decision or a general-knowledge passage of the spec, or on a choice of the model, says so. -/

open Sys2Proof Sys2Proof.Machine

namespace Sys2Proof.Claims

/-! ## Vocabulary of the statements, independent of the meanings -/

/-- The `n` bytes from `I` up all exist under the policy of `s`. -/
def inReach (s : State) (n : Nat) : Prop := s.cfg.addrPolicy = .fault → s.I.toNat + n ≤ 0x1000

/-- The word at an address, most significant byte at the lower address, as a number. -/
def bigEndianAt (s : State) (a : Nat) : Nat := (s.mem.read a).toNat * 256 + (s.mem.read (a + 1)).toNat

/-- Whether a sprite of the row bytes `row 0`, …, `row (n - 1)`, started at `(xs, ys)`, has a set bit
that lands on `p`: bit `7 - c` of row `r` is at column `xs + c`, row `ys + r`. -/
def rowsCover (row : Nat → Byte) (xs ys n : Nat) (p : Point) : Bool :=
  decide (xs ≤ p.1.val ∧ p.1.val < xs + 8 ∧ ys ≤ p.2.val ∧ p.2.val < ys + n) &&
    (row (p.2.val - ys)).getLsbD (7 - (p.1.val - xs))

/-- The same for the `n` row bytes from `I` up. -/
def spriteCovers (s : State) (xs ys n : Nat) (p : Point) : Bool :=
  rowsCover (fun k => s.readByte (s.I + BitVec.ofNat 16 k)) xs ys n p

/-- The cells of the `n` bytes from `I` up. -/
def cellsFromI (s : State) (n : Nat) : List Nat := (List.range n).map fun k => cellOf (s.I + BitVec.ofNat 16 k)

/-- The state an AddressFault at `a` leaves: Halted, one record, everything else as it was. -/
def stoppedAt (s : State) (a : Word) : State :=
  { s with run := .halted .addressFault, trace := s.trace ++ [.addressFault a] }

/-- The first address above `0x0FFF` in an access that begins at `I` and leaves the memory. -/
def firstMissing (s : State) : Word := if 0x1000 ≤ s.I.toNat then s.I else 0x1000

/-- Calls executed one after the other. -/
def callEach : List Addr → State → Result
  | [], s => .next s
  | a :: as, s =>
    match exec (.call a) s with
    | .next t => callEach as t
    | .fault f => .fault f
    | .refused r => .refused r

/-- Returns executed one after the other. -/
def returnTimes : Nat → State → Result
  | 0, s => .next s
  | k + 1, s =>
    match exec .ret s with
    | .next t => returnTimes k t
    | .fault f => .fault f
    | .refused r => .refused r

/-- The next turn is the core's, and `rest` is scheduled after it: either the schedule says so or it
has run out (log 6, 7). -/
def coreMoves (s : State) (rest : List Turn) : Prop :=
  s.schedule = .core :: rest ∨ (s.schedule = [] ∧ rest = [])

/-- `n` timer ticks. -/
def ticks : Nat → State → State
  | 0, s => s
  | k + 1, s => ticks k s.tick

/-- `s` with the other setting of `QUIRK_VF_DEST_SUPPRESS`. -/
def flipSuppress (s : State) : State :=
  { s with cfg := { s.cfg with vfDestSuppress := !s.cfg.vfDestSuppress } }

end Sys2Proof.Claims

open Sys2Proof.Claims

/-! ## Encoding -/

/-- Decoding the word the encoder gives a well-formed instruction gives it back, for all 35
instructions and every operand. -/
def Obligations.DecodeOfEncodeIsTheInstruction : Prop :=
  ∀ i : Instr, i.wellFormed = true → decode (encode i) = .ok i

/-- A word that decodes is the word of the instruction it decodes to, and that instruction is well
formed: no bit of an accepted word is dropped (the ignored nibble of 5xyn, 9xyn is kept, log 17). -/
def Obligations.EncodeOfDecodeIsTheWord : Prop :=
  ∀ (w : Word) (i : Instr), decode w = .ok i → encode i = w ∧ i.wellFormed = true

/-- 30_encoding.md R73: every word decodes to an instruction or to UnknownInstruction of itself; it
selects the row of the instruction it decodes to; a row it selects beside that one is the row of SYS
under CLS or RET; a word is unknown exactly when it selects no row. -/
def Obligations.DecodeFollowsTheOpcodeTable : Prop :=
  ∀ w : Word,
    ((∃ i, decode w = .ok i) ∨ decode w = .error (.unknownInstruction w)) ∧
    (∀ i, decode w = .ok i → i.row.selects w = true ∧ i.row ∈ opcodeTable ∧
      ∀ r ∈ opcodeTable, r.selects w = true →
        r = i.row ∨ (r = (Instr.sys 0).row ∧ (i = .cls ∨ i = .ret))) ∧
    ((∀ r ∈ opcodeTable, r.selects w = false) ↔ decode w = .error (.unknownInstruction w))

/-- 30_encoding.md R77: which words are unknown, by their digits. -/
def Obligations.UnknownWordsAreExactlyThese : Prop :=
  ∀ w : Word, decode w = .error (.unknownInstruction w) ↔
    (w.toNat / 4096 = 0x8 ∧ w.toNat % 16 ∈ [0x8, 0x9, 0xA, 0xB, 0xC, 0xD, 0xF]) ∨
    (w.toNat / 4096 = 0xE ∧ w.toNat % 256 ∉ [0x9E, 0xA1]) ∨
    (w.toNat / 4096 = 0xF ∧
      w.toNat % 256 ∉ [0x07, 0x0A, 0x15, 0x18, 0x1E, 0x29, 0x33, 0x55, 0x65])

/-- One word of every format, written out bit by bit, decodes to its instruction. The words of CLS
and ADD are the source's; the selectors of RET, SKP and LD [I],Vx are the spec's general knowledge
(G4; PRESUMED, log 5), and that `0x01E0` is SYS is its decision D3 (log 21). -/
def Obligations.SampleWordsDecode : Prop :=
  decode 0b0000000011100000#16 = .ok .cls ∧ decode 0b0000000011101110#16 = .ok .ret ∧
  decode 0b0000000111100000#16 = .ok (.sys 0x1E0) ∧ decode 0b0110101000000101#16 = .ok (.ldByte 10 5) ∧
  decode 0b1000101010110100#16 = .ok (.addReg 10 11) ∧
  decode 0b1101001000110010#16 = .ok (.drw 2 3 2) ∧ decode 0b1110010010011110#16 = .ok (.skp 4) ∧
  decode 0b1111000101010101#16 = .ok (.storeRegs 1) ∧
  decode 0b1000000000001000#16 = .error (.unknownInstruction 0x8008)

/-! ## The instruction step -/

/-- 30_encoding.md R60, R61: when the core moves, is Running and its two fetch addresses exist, the
step is the meaning of the instruction that the big-endian word at `[pc, pc+1]` decodes to, entered
with `pc` advanced by 2. Nothing is added but that the scheduled turn is used up (log 6, 7). -/
def Obligations.StepRunsTheDecodedInstruction : Prop :=
  ∀ (s : State) (i : Instr) (rest : List Turn),
    coreMoves s rest → s.run = .running → (s.cfg.addrPolicy = .fault → s.pc.toNat ≤ 0x0FFE) →
    decode s.fetchWord = .ok i → step s = exec i { s with pc := s.pc + 2, schedule := rest }

/-- 20_memory.md R50: the fetched word is the byte at `pc` and the byte at `pc + 1`, the first the
high one. -/
def Obligations.FetchIsBigEndian : Prop :=
  ∀ s : State, s.pc.toNat ≤ 0x0FFE → s.fetchWord.toNat = bigEndianAt s s.pc.toNat

/-- 30_encoding.md R76: a step on a word that matches no operation reports it and changes nothing
else but `pc`, advanced by 2; the core goes on Running (turn: log 6, 7). -/
def Obligations.UnknownWordIsAReportedNoOp : Prop :=
  ∀ (s : State) (rest : List Turn), coreMoves s rest → s.run = .running →
    (s.cfg.addrPolicy = .fault → s.pc.toNat ≤ 0x0FFE) →
    decode s.fetchWord = .error (.unknownInstruction s.fetchWord) →
    ∃ t, step s = .next t ∧ t.pc = s.pc + 2 ∧ t.run = .running ∧
      t.trace = s.trace ++ [.unknownInstruction s.fetchWord] ∧
      Frame [] [.pc, .trace] { s with schedule := rest } t

/-- A fetch above `0x0FFE` under policy fault halts the core with `pc` unadvanced (20_memory.md,
decision D1, D14). -/
def Obligations.FetchOutOfRangeHalts : Prop :=
  ∀ (s : State) (rest : List Turn), coreMoves s rest → s.run = .running →
    s.cfg.addrPolicy = .fault → 0x0FFE < s.pc.toNat →
    step s = .next (stoppedAt { s with schedule := rest }
      (if 0x1000 ≤ s.pc.toNat then s.pc else 0x1000))

/-- The host's word: whatever the state, a step after `withFetchWord` runs the placed word and no
other; only the two bytes at `pc`, the run state, the schedule, and a `pc` that could not be fetched
from may differ from `s` (log 23). -/
def Obligations.PlacedWordIsRunNext : Prop :=
  ∀ (s : State) (w : Nat), w < 65536 →
    ∃ t : State, step (s.withFetchWord 16 w) = t.advance.execWord (BitVec.ofNat 16 w) ∧
      t.fetchWord = BitVec.ofNat 16 w ∧ t.run = .running ∧ (s.fetchFault = none → t.pc = s.pc) ∧
      (∀ a : Nat, a ≠ cellOf t.pc → a ≠ cellOf (t.pc + 1) → t.mem.read a = s.mem.read a) ∧
      Frame [] [.pc, .memory, .run] { s with schedule := t.schedule } t

/-! ## Families 0, 1, 2, A, B: system and control flow -/

/-- 40_family0_system.md R100: CLS turns every pixel off with exactly one `clear()`; no register,
no flag, no other state changes. -/
def Obligations.ClsClearsEveryPixel : Prop :=
  decode 0x00E0#16 = .ok .cls ∧
  ∀ s : State, ∃ t, exec .cls s = .next t ∧ (∀ p, t.pixel p = false) ∧
    t.display = s.display ++ [.clear] ∧ Frame [] [.pixels, .display] s t

/-- RET with a live entry pops it into `pc`; with none it reports StackUnderflow and leaves `pc`
and the stack as they are. -/
def Obligations.RetPopsOrReportsUnderflow : Prop :=
  ∀ s : State,
    (∀ k : Fin 16, s.sp.val = k.val + 1 → ∃ t, exec .ret s = .next t ∧ t.pc = s.stack[k] ∧
      t.sp.val = k.val ∧ t.stack = s.stack ∧ Frame [] [.pc, .stack] s t) ∧
    (s.sp.val = 0 → ∃ t, exec .ret s = .next t ∧ t.trace = s.trace ++ [.stackUnderflow] ∧
      Frame [] [.trace] s t)

/-- SYS addr is logged and changes nothing else; in particular it does not jump. That the record is
kept in the trace is the model's choice (60_exceptions.md R225; log 14). -/
def Obligations.SysIsALoggedNoOp : Prop :=
  ∀ (nnn : Addr) (s : State), ∃ t, exec (.sys nnn) s = .next t ∧
    t.trace = s.trace ++ [.sysIgnored nnn] ∧ Frame [] [.trace] s t

/-- 41_jump_call.md R110: `pc` becomes the address, unchecked. -/
def Obligations.JpSetsPc : Prop :=
  ∀ (nnn : Addr) (s : State), decode (formatA 0x1 nnn) = .ok (.jp nnn) ∧
    ∃ t, exec (.jp nnn) s = .next t ∧ t.pc.toNat = nnn.toNat ∧ Frame [] [.pc] s t

/-- 41_jump_call.md R111: CALL pushes the advanced `pc` and jumps; with sixteen live entries it
reports StackOverflow and leaves stack, `sp` and `pc` unchanged. -/
def Obligations.CallPushesOrReportsOverflow : Prop :=
  ∀ (nnn : Addr) (s : State), decode (formatA 0x2 nnn) = .ok (.call nnn) ∧
    (∀ k : Fin 16, s.sp.val = k.val → ∃ t, exec (.call nnn) s = .next t ∧ t.stack[k] = s.pc ∧
      (∀ j : Fin 16, j ≠ k → t.stack[j] = s.stack[j]) ∧ t.sp.val = k.val + 1 ∧
      t.pc.toNat = nnn.toNat ∧ Frame [] [.pc, .stack] s t) ∧
    (s.sp.val = 16 → ∃ t, exec (.call nnn) s = .next t ∧ t.trace = s.trace ++ [.stackOverflow] ∧
      Frame [] [.trace] s t)

/-- Any number of nested calls that fit, followed by as many returns, come back to the starting
`pc` and depth without a report; the entries below the starting depth are as they were. -/
def Obligations.NestedCallsReturnInOrder : Prop :=
  ∀ (as : List Addr) (s : State), s.sp.val + as.length ≤ 16 →
    ∃ t u, callEach as s = .next t ∧ t.sp.val = s.sp.val + as.length ∧ t.trace = s.trace ∧
      returnTimes as.length t = .next u ∧ u.pc = s.pc ∧ u.sp = s.sp ∧ u.trace = s.trace ∧
      (∀ j : Fin 16, j.val < s.sp.val → u.stack[j] = s.stack[j])

/-- 45_index_jump.md R160: `I` becomes the 12-bit address, zero-extended. -/
def Obligations.LdISetsIndex : Prop :=
  ∀ (nnn : Addr) (s : State), decode (formatA 0xA nnn) = .ok (.ldI nnn) ∧
    ∃ t, exec (.ldI nnn) s = .next t ∧ t.I.toNat = nnn.toNat ∧ Frame [] [.index] s t

/-- 45_index_jump.md R161: `pc` becomes `nnn + V[0]`, not reduced to 12 bits. -/
def Obligations.JpV0AddsRegisterZero : Prop :=
  ∀ (nnn : Addr) (s : State), decode (formatA 0xB nnn) = .ok (.jpV0 nnn) ∧
    ∃ t, exec (.jpV0 nnn) s = .next t ∧ t.pc.toNat = nnn.toNat + (s.reg 0).toNat ∧
      Frame [] [.pc] s t

/-! ## Families 3, 4, 5, 9, E: skips -/

/-- 42_skip.md R119: the four skips add 2 to `pc` exactly when their condition holds, and change
nothing else; the nibble of 5xyn and 9xyn plays no part. -/
def Obligations.SkipsAddTwoWhenTheyHold : Prop :=
  ∀ (x y : Reg) (kk : Byte) (n : Nibble) (s : State),
    (∃ t, exec (.seByte x kk) s = .next t ∧ Frame [] [.pc] s t ∧
      t.pc = if s.reg x = kk then s.pc + 2 else s.pc) ∧
    (∃ t, exec (.sneByte x kk) s = .next t ∧ Frame [] [.pc] s t ∧
      t.pc = if s.reg x = kk then s.pc else s.pc + 2) ∧
    (∃ t, exec (.seReg x y n) s = .next t ∧ Frame [] [.pc] s t ∧
      t.pc = if s.reg x = s.reg y then s.pc + 2 else s.pc) ∧
    (∃ t, exec (.sneReg x y n) s = .next t ∧ Frame [] [.pc] s t ∧
      t.pc = if s.reg x = s.reg y then s.pc else s.pc + 2)

/-- SKP and SKNP on a register that names a key read that key's held state and skip on pressed, on
not pressed; nothing but `pc` changes. -/
def Obligations.KeySkipsReadTheHeldKey : Prop :=
  ∀ (x : Reg) (k : Key) (s : State), (s.reg x).toNat = k.val →
    (∃ t, exec (.skp x) s = .next t ∧ Frame [] [.pc] s t ∧
      t.pc = if s.keyDown k = true then s.pc + 2 else s.pc) ∧
    (∃ t, exec (.sknp x) s = .next t ∧ Frame [] [.pc] s t ∧
      t.pc = if s.keyDown k = true then s.pc else s.pc + 2)

/-- On a register value of 16 or more the answer is a free value: SKP and SKNP still complete, see
complementary answers from the same state, and use the draw up (decision D4; log 10). -/
def Obligations.KeySkipsOutOfRangeComplement : Prop :=
  ∀ (x : Reg) (s : State), 16 ≤ (s.reg x).toNat →
    ∃ t u, exec (.skp x) s = .next t ∧ exec (.sknp x) s = .next u ∧
      ((t.pc = s.pc + 2 ∧ u.pc = s.pc) ∨ (t.pc = s.pc ∧ u.pc = s.pc + 2)) ∧
      t.draws = s.draws + 1 ∧ u.draws = s.draws + 1 ∧
      Frame [] [.pc, .draws] s t ∧ Frame [] [.pc, .draws] s u

/-! ## Families 6, 7, 8, C: registers -/

/-- 43_immediate.md R130. -/
def Obligations.LdByteLoadsTheByte : Prop :=
  ∀ (x : Reg) (kk : Byte) (s : State), decode (formatXK 0x6 x kk) = .ok (.ldByte x kk) ∧
    ∃ t, exec (.ldByte x kk) s = .next t ∧ t.reg x = kk ∧ Frame [x] [] s t

/-- 43_immediate.md R131: the sum modulo 256; the flag register is written only as a destination. -/
def Obligations.AddByteWrapsWithoutFlag : Prop :=
  ∀ (x : Reg) (kk : Byte) (s : State), decode (formatXK 0x7 x kk) = .ok (.addByte x kk) ∧
    ∃ t, exec (.addByte x kk) s = .next t ∧
      (t.reg x).toNat = ((s.reg x).toNat + kk.toNat) % 256 ∧ Frame [x] [] s t

/-- 44_alu.md R143: a copy, no flag. -/
def Obligations.LdRegCopies : Prop :=
  ∀ (x y : Reg) (s : State), ∃ t, exec (.ldReg x y) s = .next t ∧ t.reg x = s.reg y ∧
    Frame [x] [] s t

/-- OR, AND, XOR, bit by bit of the operands before the instruction; the flag register is cleared
last when the quirk says so (the order for `x = 15` is decision D8), and otherwise only written as
the destination. -/
def Obligations.LogicOpsClearTheFlagByQuirk : Prop :=
  ∀ (x y : Reg) (s : State) (i : Instr) (f : Bool → Bool → Bool),
    (i = .orReg x y ∧ f = Bool.or) ∨ (i = .andReg x y ∧ f = Bool.and) ∨ (i = .xorReg x y ∧ f = Bool.xor) →
    ∃ t, exec i s = .next t ∧
      (s.cfg.logicClearsVF = true → t.reg 15 = 0 ∧ Frame [x, 15] [] s t) ∧
      (s.cfg.logicClearsVF = false → Frame [x] [] s t) ∧
      (x ≠ 15 ∨ s.cfg.logicClearsVF = false → ∀ b < 8,
        (t.reg x).getLsbD b = f ((s.reg x).getLsbD b) ((s.reg y).getLsbD b))

/-- 44_alu.md R147, R140: the carry of the widened sum in `V[15]` in every case, the truncated sum
in `V[x]` unless `x = 15`; operands are read before anything is written. -/
def Obligations.AddRegSetsCarry : Prop :=
  ∀ (x y : Reg) (s : State), decode (formatXY 0x8 x y 0x4) = .ok (.addReg x y) ∧
    ∃ t, exec (.addReg x y) s = .next t ∧
      (t.reg 15).toNat = (if 255 < (s.reg x).toNat + (s.reg y).toNat then 1 else 0) ∧
      (x ≠ 15 → (t.reg x).toNat = ((s.reg x).toNat + (s.reg y).toNat) % 256) ∧
      Frame [x, 15] [] s t

/-- SUB and SUBN: the no-borrow flag in `V[15]` in every case (equal operands give 1), the
difference modulo 256 in `V[x]` unless `x = 15`. -/
def Obligations.SubtractionsSetNoBorrow : Prop :=
  ∀ (x y : Reg) (s : State) (i : Instr) (a b : Byte),
    (i = .subReg x y ∧ a = s.reg x ∧ b = s.reg y) ∨ (i = .subnReg x y ∧ a = s.reg y ∧ b = s.reg x) →
    ∃ t, exec i s = .next t ∧
      (t.reg 15).toNat = (if b.toNat ≤ a.toNat then 1 else 0) ∧
      (x ≠ 15 → ((t.reg x).toNat : Int) = ((a.toNat : Int) - b.toNat) % 256) ∧
      Frame [x, 15] [] s t

/-- SHR and SHL: the operand shifted is `V[y]`, the bit shifted out is the flag, the result goes to
`V[x]` unless `x = 15`. -/
def Obligations.ShiftsTakeTheirSourceFromVy : Prop :=
  ∀ (x y : Reg) (s : State),
    (∃ t, exec (.shrReg x y) s = .next t ∧ (t.reg 15).toNat = (s.reg y).toNat % 2 ∧
      (x ≠ 15 → (t.reg x).toNat = (s.reg y).toNat / 2) ∧ Frame [x, 15] [] s t) ∧
    (∃ t, exec (.shlReg x y) s = .next t ∧ (t.reg 15).toNat = (s.reg y).toNat / 128 ∧
      (x ≠ 15 → (t.reg x).toNat = (s.reg y).toNat * 2 % 256) ∧ Frame [x, 15] [] s t)

/-- `QUIRK_VF_DEST_SUPPRESS` is not observable: for every instruction and state, executing under
the other setting gives the same outcome but for that setting. -/
def Obligations.SuppressQuirkIsUnobservable : Prop :=
  ∀ (i : Instr) (s t : State), exec i s = .next t → exec i (flipSuppress s) = .next (flipSuppress t)

/-- RND: for the byte drawn, whatever it is, `V[x]` is that byte masked; a bit clear in the mask is
clear in the result; the draw is used up, so the next execution draws afresh (decision D19; log 9). -/
def Obligations.RndMasksAFreeByte : Prop :=
  ∀ (x : Reg) (kk : Byte) (s : State), ∃ (t : State) (r : Byte), exec (.rnd x kk) s = .next t ∧
    r = Config.drawByte s.draws ∧
    (∀ b < 8, (t.reg x).getLsbD b = (r.getLsbD b && kk.getLsbD b)) ∧ t.draws = s.draws + 1 ∧
    Frame [x] [.draws] s t

/-! ## Family D: drawing -/

/-- DRW with its rows in reach: a pixel is inverted exactly when a set bit of the sprite lands on
it, clipped at the edges; `V[15]` is 1 exactly when one of those was on; start coordinates are the
old register values modulo 64 and 32 (bit order G7, latch D5). -/
def Obligations.DrwXorsTheSprite : Prop :=
  ∀ (x y : Reg) (n : Nibble) (s : State), inReach s n.toNat →
    ∃ t, exec (.drw x y n) s = .next t ∧
      (∀ p, t.pixel p = (s.pixel p ^^
        spriteCovers s ((s.reg x).toNat % 64) ((s.reg y).toNat % 32) n.toNat p)) ∧
      ((∃ p, s.pixel p = true ∧
          spriteCovers s ((s.reg x).toNat % 64) ((s.reg y).toNat % 32) n.toNat p = true) →
        t.reg 15 = 1) ∧
      ((∀ p, s.pixel p = true →
          spriteCovers s ((s.reg x).toNat % 64) ((s.reg y).toNat % 32) n.toNat p = false) →
        t.reg 15 = 0) ∧
      Frame [15] [.pixels, .display] s t

/-- DRW with `n = 0`: no pixel changes, nothing is issued on the display, nothing is out of reach at
any `I`, and the flag is cleared (decision D18). -/
def Obligations.DrwZeroRowsClearsTheFlag : Prop :=
  ∀ (x y : Reg) (s : State), ∃ t, exec (.drw x y 0) s = .next t ∧ t.reg 15 = 0 ∧ Frame [15] [] s t

/-- 47_draw.md R187: a draw executed twice with the same start column, start row, height, index and
sprite bytes, no pixel changing between, restores every pixel; the first flag is 1 exactly when that
draw turned a pixel off, the second exactly when the first draw turned one on, and 0 otherwise. The
registers that hold the start may differ. -/
def Obligations.DoubleDrawRestoresThePixels : Prop :=
  ∀ (x y x' y' : Reg) (n : Nibble) (s t u : State),
    exec (.drw x y n) s = .next t → t.run = .running →
    u.pix = t.pix → u.cfg = s.cfg → u.I = s.I →
    (u.reg x').toNat % 64 = (s.reg x).toNat % 64 → (u.reg y').toNat % 32 = (s.reg y).toNat % 32 →
    (∀ k < n.toNat, u.readByte (s.I + BitVec.ofNat 16 k) = s.readByte (s.I + BitVec.ofNat 16 k)) →
    ∃ v, exec (.drw x' y' n) u = .next v ∧ (∀ p, v.pixel p = s.pixel p) ∧
      (t.reg 15 = 1 ↔ ∃ p, s.pixel p = true ∧ t.pixel p = false) ∧
      (v.reg 15 = 1 ↔ ∃ p, s.pixel p = false ∧ t.pixel p = true) ∧
      (v.reg 15 = 0 ↔ ∀ p, t.pixel p = true → s.pixel p = true)

/-- Each drawn bit issues one `getPixel` and one `setPixel`, of the inverted value, on the same
point, and nothing else goes to the display; no point is drawn twice (47_draw.md R185; the order is
log 15). Which points these are rests on the bit order G7 (PRESUMED, log 18) and the latch D5. -/
def Obligations.DrwIssuesOneGetAndOneSetPerBit : Prop :=
  ∀ (x y : Reg) (n : Nibble) (s : State), inReach s n.toNat →
    ∃ (t : State) (ps : List Point), exec (.drw x y n) s = .next t ∧ ps.Nodup ∧
      (∀ p, p ∈ ps ↔
        spriteCovers s ((s.reg x).toNat % 64) ((s.reg y).toNat % 32) n.toNat p = true) ∧
      t.display = s.display ++
        ps.flatMap fun p => [DisplayOp.getPixel p, DisplayOp.setPixel p (!s.pixel p)]

/-! ## Family F -/

/-- LD Vx,DT, LD DT,Vx and LD ST,Vx move the byte and change nothing else; the sound output follows
`ST`. -/
def Obligations.TimerTransfersMoveTheByte : Prop :=
  ∀ (x : Reg) (s : State),
    (∃ t, exec (.ldFromDT x) s = .next t ∧ t.reg x = s.DT ∧ Frame [x] [] s t) ∧
    (∃ t, exec (.ldDT x) s = .next t ∧ t.DT = s.reg x ∧ Frame [] [.delayTimer] s t) ∧
    (∃ t, exec (.ldST x) s = .next t ∧ t.ST = s.reg x ∧
      (t.soundActive = true ↔ s.reg x ≠ 0) ∧ Frame [] [.soundTimer] s t)

/-- LD Vx,K always suspends, with `x` latched; no register is written yet. -/
def Obligations.LdKeySuspends : Prop :=
  ∀ (x : Reg) (s : State), ∃ t, exec (.ldKey x) s = .next t ∧ t.run = .awaitingKey x ∧
    Frame [] [.run] s t

/-- A key wait: `n` ticks, then a key press. Each tick counts both timers down to a floor of 0; the
press writes the symbol to the latched register and the core runs again at the same `pc`; nothing else
changes but the schedule, used up (60_exceptions.md R230, R232, as turns of the schedule, log 6). -/
def Obligations.KeyWaitEndsWithThePressedSymbol : Prop :=
  ∀ (s : State) (kx : Reg) (n : Nat) (k : Key) (rest : List Turn), s.run = .awaitingKey kx →
    s.schedule = List.replicate n .tick ++ .keyPress k :: rest →
    ∃ t, core.run (n + 1) s = .next t ∧ (t.reg kx).toNat = k.val ∧ t.run = .running ∧
      t.DT.toNat = s.DT.toNat - n ∧ t.ST.toNat = s.ST.toNat - n ∧
      t.display = s.display ++ List.replicate n .present ∧ t.schedule = rest ∧
      (∀ r, r ≠ kx → t.reg r = s.reg r) ∧ t.pc = s.pc ∧ t.I = s.I ∧ t.sp = s.sp ∧
      t.stack = s.stack ∧ t.mem = s.mem ∧ t.pix = s.pix ∧ t.trace = s.trace ∧ t.keys = s.keys ∧
      t.draws = s.draws ∧ t.cfg = s.cfg

/-- While a key is awaited a core turn changes nothing: no instruction step is enabled
(60_exceptions.md R231; the idle turn is log 7). -/
def Obligations.NoInstructionRunsDuringAKeyWait : Prop :=
  ∀ (s : State) (kx : Reg) (rest : List Turn), coreMoves s rest → s.run = .awaitingKey kx →
    step s = .next { s with schedule := rest }

/-- ADD I,Vx: a 16-bit sum with no flag; LD F,Vx: the base of the glyph of the low four bits. -/
def Obligations.IndexArithmetic : Prop :=
  ∀ (x : Reg) (s : State),
    (∃ t, exec (.addI x) s = .next t ∧ t.I.toNat = (s.I.toNat + (s.reg x).toNat) % 65536 ∧
      Frame [] [.index] s t) ∧
    (∃ t, exec (.ldFont x) s = .next t ∧ t.I.toNat = 5 * ((s.reg x).toNat % 16) ∧
      Frame [] [.index] s t)

/-- LD B,Vx in reach: the three decimal digits at `I`, `I+1`, `I+2`, every other byte and `I`
unchanged. -/
def Obligations.LdBcdStoresThreeDigits : Prop :=
  ∀ (x : Reg) (s : State), inReach s 3 →
    ∃ t, exec (.ldBcd x) s = .next t ∧
      (t.readByte s.I).toNat * 100 + (t.readByte (s.I + 1)).toNat * 10 + (t.readByte (s.I + 2)).toNat =
        (s.reg x).toNat ∧
      (t.readByte s.I).toNat ≤ 9 ∧ (t.readByte (s.I + 1)).toNat ≤ 9 ∧ (t.readByte (s.I + 2)).toNat ≤ 9 ∧
      (∀ a, a ∉ cellsFromI s 3 → t.mem.read a = s.mem.read a) ∧ Frame [] [.memory] s t

/-- LD [I],Vx in reach: `V[0]` to `V[x]` at `I` up, `I` advanced past them, every other byte
unchanged. -/
def Obligations.StoreRegsStoresAndAdvances : Prop :=
  ∀ (x : Reg) (s : State), inReach s (x.val + 1) →
    ∃ t, exec (.storeRegs x) s = .next t ∧
      (∀ r : Reg, r ≤ x → t.readByte (s.I + BitVec.ofNat 16 r.val) = s.reg r) ∧
      t.I.toNat = (s.I.toNat + x.val + 1) % 65536 ∧
      (∀ a, a ∉ cellsFromI s (x.val + 1) → t.mem.read a = s.mem.read a) ∧
      Frame [] [.memory, .index] s t

/-- LD Vx,[I] in reach: the bytes at `I` up in `V[0]` to `V[x]`, `I` advanced past them, the other
registers and all of memory unchanged. -/
def Obligations.LoadRegsLoadsAndAdvances : Prop :=
  ∀ (x : Reg) (s : State), inReach s (x.val + 1) →
    ∃ t, exec (.loadRegs x) s = .next t ∧
      (∀ r : Reg, r ≤ x → t.reg r = s.readByte (s.I + BitVec.ofNat 16 r.val)) ∧
      (∀ r : Reg, x < r → t.reg r = s.reg r) ∧
      t.I.toNat = (s.I.toNat + x.val + 1) % 65536 ∧ Frame (regsThrough x) [.index] s t

/-- What LD [I],Vx stored, LD Vx,[I] from the same index brings back, whatever the registers, timers
and `pc` are by then. -/
def Obligations.LoadAfterStoreRestoresTheRegisters : Prop :=
  ∀ (x : Reg) (s t u : State), inReach s (x.val + 1) → exec (.storeRegs x) s = .next t →
    u.mem = t.mem → u.cfg = t.cfg → u.I = s.I →
    ∃ w, exec (.loadRegs x) u = .next w ∧ (∀ r : Reg, r ≤ x → w.reg r = s.reg r) ∧ w.I = t.I

/-- The four accesses through `I` that leave the memory under policy fault halt the core before
any effect: one AddressFault record with the first missing address (20_memory.md, decisions D1,
D14; log 2). -/
def Obligations.AccessOutOfRangeHaltsBeforeAnyEffect : Prop :=
  ∀ (x y : Reg) (n : Nibble) (s : State), s.cfg.addrPolicy = .fault →
    (n ≠ 0 → 0x1000 < s.I.toNat + n.toNat → exec (.drw x y n) s = .next (stoppedAt s (firstMissing s))) ∧
    (0x1000 < s.I.toNat + 3 → exec (.ldBcd x) s = .next (stoppedAt s (firstMissing s))) ∧
    (0x1000 < s.I.toNat + x.val + 1 →
      exec (.storeRegs x) s = .next (stoppedAt s (firstMissing s)) ∧
      exec (.loadRegs x) s = .next (stoppedAt s (firstMissing s)))

/-- A store is seen by the very next fetch: two bytes stored over the word at `pc` are the word
fetched there. -/
def Obligations.StoreIsSeenByTheNextFetch : Prop :=
  ∀ (x : Reg) (s t : State), 1 ≤ x.val → inReach s (x.val + 1) → s.pc = s.I →
    exec (.storeRegs x) s = .next t →
    t.fetchWord.toNat = (s.reg 0).toNat * 256 + (s.reg 1).toNat

/-! ## Events -/

/-- 60_exceptions.md R228: one tick decrements each timer that is not 0, presents once, and touches
nothing else; enabled when Running and when awaiting a key, as the scheduled turn (log 6). -/
def Obligations.TickCountsDownAndPresents : Prop :=
  ∀ (s : State) (rest : List Turn), (∀ r, s.run ≠ .halted r) → s.schedule = .tick :: rest →
    ∃ t, step s = .next t ∧ t.DT.toNat = s.DT.toNat - 1 ∧ t.ST.toNat = s.ST.toNat - 1 ∧
      t.display = s.display ++ [.present] ∧ t.schedule = rest ∧
      Frame [] [.delayTimer, .soundTimer, .display] { s with schedule := rest } t

/-- Any number of ticks: each timer falls by that number, to a floor of 0 where it stays, and each
tick presents once (60_exceptions.md R228); the sound output is active until `ST` has run out
(R243, a level by decision D12). -/
def Obligations.TimersNeverUnderflow : Prop :=
  ∀ (n : Nat) (s : State), (ticks n s).DT.toNat = s.DT.toNat - n ∧
    (ticks n s).ST.toNat = s.ST.toNat - n ∧
    ((ticks n s).soundActive = true ↔ n < s.ST.toNat) ∧
    (ticks n s).display = s.display ++ List.replicate n .present

/-- 60_exceptions.md R233: a quit halts a running and a waiting core alike and writes no register
nor anything else; after it no step changes anything (as a scheduled turn, log 6). -/
def Obligations.QuitHaltsAndWritesNothing : Prop :=
  ∀ (s : State) (rest : List Turn), (∀ r, s.run ≠ .halted r) → s.schedule = .quit :: rest →
    ∃ t, step s = .next t ∧ t.run = .halted .quit ∧ t.schedule = rest ∧ (∀ u, step t ≠ .next u) ∧
      Frame [] [.run] { s with schedule := rest } t

/-- 60_exceptions.md R239, R238: a key press while the core runs is not delivered and changes nothing
(log 11); the Input Surface's change of the held keys is no step of the core and, running or waiting,
changes the held keys only (turns: log 6, 8). -/
def Obligations.UndeliveredInputsChangeNothing : Prop :=
  ∀ (s : State) (k : Key) (held : Vector Bool 16) (rest : List Turn),
    (s.run = .running → s.schedule = .keyPress k :: rest →
      step s = .next { s with schedule := rest }) ∧
    ((∀ r, s.run ≠ .halted r) → s.schedule = .heldKeys held :: rest →
      step s = .next { s with schedule := rest, keys := held })

/-- The machine is stuck exactly when it is Halted, with that reason, and never refuses
(60_exceptions.md R234; the fault is log 12). -/
def Obligations.StuckExactlyWhenHalted : Prop :=
  ∀ s : State, (∀ r, s.run = .halted r ↔ step s = .fault (.halted r)) ∧
    ∀ m, step s ≠ .refused m

/-! ## Whole-machine rules -/

/-- Every instruction completes in every state: no operand, flag, parameter or address makes a
meaning fault or refuse. -/
def Obligations.EveryInstructionCompletes : Prop :=
  ∀ (i : Instr) (s : State), ∃ t, exec i s = .next t

/-- The frame of all 35 instructions: each writes at most the registers and parts the spec names for
it; no instruction writes the held keys, the schedule or the parameters. Of the parts that hold many
cells: LD B and LD [I] change no byte but those at their addresses, RET no stack entry, CALL none but
the one at `sp`, DRW no pixel but those under the sprite's set bits (bit order G7, log 18; latch D5). -/
def Obligations.EveryInstructionKeepsItsFrame : Prop :=
  ∀ (i : Instr) (s t : State), exec i s = .next t →
    Frame (destRegs i) (destParts i) s t ∧
    (∀ x, i = .ldBcd x → ∀ a, a ∉ cellsFromI s 3 → t.mem.read a = s.mem.read a) ∧
    (∀ x, i = .storeRegs x → ∀ a, a ∉ cellsFromI s (x.val + 1) → t.mem.read a = s.mem.read a) ∧
    (i = .ret → t.stack = s.stack) ∧
    (∀ nnn, i = .call nnn → ∀ k : Fin 16, k.val ≠ s.sp.val → t.stack[k] = s.stack[k]) ∧
    (∀ x y n, i = .drw x y n → ∀ p,
      spriteCovers s ((s.reg x).toNat % 64) ((s.reg y).toNat % 32) n.toNat p = false →
      t.pixel p = s.pixel p)

/-- The observer's and the display's streams are append-only, and one step raises at most one
condition (60_exceptions.md R220, R227). That both are kept as lists is the model's choice (log 14). -/
def Obligations.StreamsAreAppendOnly : Prop :=
  ∀ s t : State, step s = .next t →
    (∃ new, t.trace = s.trace ++ new ∧ new.length ≤ 1) ∧ (∃ out, t.display = s.display ++ out)

/-- Under wrap12 every access is taken modulo 4096 (20_memory.md R49, decision D1): each byte read and
written, the two bytes of a fetch, the bytes LD [I],Vx and LD B,Vx store, those LD Vx,[I] loads, the
rows of DRW (bit order G7, log 18; latch D5); and no turn of the core raises AddressFault or halts it. -/
def Obligations.WrapPolicyNeverFaults : Prop :=
  ∀ s : State, s.cfg.addrPolicy = .wrap12 →
    (∀ a : Word, s.readByte a = s.mem.read (a.toNat % 4096)) ∧
    (∀ (a : Word) (b : Byte) (c : Nat), (s.writeByte a b).mem.read c =
      if c = a.toNat % 4096 then b else s.mem.read c) ∧
    s.fetchWord.toNat = (s.mem.read (s.pc.toNat % 4096)).toNat * 256 +
      (s.mem.read ((s.pc.toNat + 1) % 4096)).toNat ∧
    (∀ x : Reg, ∃ t, exec (.storeRegs x) s = .next t ∧
      ∀ r : Reg, r ≤ x → t.mem.read ((s.I.toNat + r.val) % 4096) = s.reg r) ∧
    (∀ x : Reg, ∃ t, exec (.loadRegs x) s = .next t ∧
      ∀ r : Reg, r ≤ x → t.reg r = s.mem.read ((s.I.toNat + r.val) % 4096)) ∧
    (∀ x : Reg, ∃ t, exec (.ldBcd x) s = .next t ∧
      (t.mem.read (s.I.toNat % 4096)).toNat = (s.reg x).toNat / 100 ∧
      (t.mem.read ((s.I.toNat + 1) % 4096)).toNat = (s.reg x).toNat / 10 % 10 ∧
      (t.mem.read ((s.I.toNat + 2) % 4096)).toNat = (s.reg x).toNat % 10) ∧
    (∀ (x y : Reg) (n : Nibble), ∃ t, exec (.drw x y n) s = .next t ∧
      ∀ p, t.pixel p = (s.pixel p ^^ rowsCover (fun k => s.mem.read ((s.I.toNat + k) % 4096))
        ((s.reg x).toNat % 64) ((s.reg y).toNat % 32) n.toNat p)) ∧
    ∀ (t : State) (rest : List Turn), coreMoves s rest → step s = .next t →
      (∀ r, t.run ≠ .halted r) ∧ (∀ a, t.trace ≠ s.trace ++ [.addressFault a])

/-- Every step keeps memory in its canonical form, below `0x1000` (the model's form, log 20). -/
def Obligations.StepKeepsMemoryCanonical : Prop :=
  ∀ s t : State, s.memCanonical → step s = .next t → t.memCanonical

/-- Every step keeps it true that the core has halted for an AddressFault exactly when one is on
record (60_exceptions.md R224, decision D1; log 2). -/
def Obligations.StepKeepsFaultExactlyWhenHalted : Prop :=
  ∀ s t : State, s.faultIsHalt → step s = .next t → t.faultIsHalt

/-- Every step keeps the bound of 10_state.md R15 on `pc`, given that the stack holds only
addresses that can follow a CALL, which every step keeps too. -/
def Obligations.StepKeepsPcBounded : Prop :=
  ∀ s t : State, s.pcBounded → step s = .next t → t.pcBounded

/-- The three invariants hold after reset and after every load into a state where they hold. -/
def Obligations.ResetAndLoadMeetTheInvariants : Prop :=
  State.reset.memCanonical ∧ State.reset.faultIsHalt ∧ State.reset.pcBounded ∧
  ∀ (fill s : State) (font : Vector Byte 80) (image : List Byte), fill.memCanonical →
    fill.pcBounded → fill.load font image = .ok s → s.memCanonical ∧ s.faultIsHalt ∧ s.pcBounded

/-! ## Reset -/

/-- The reset state, item by item: the values of 10_state.md's table (those of decision D2 and the
default font G2 among them; log 3, 4). -/
def Obligations.ResetStateIsTheTable : Prop :=
  State.reset.pc = 0x0200 ∧ State.reset.sp.val = 0 ∧ State.reset.run = .running ∧
  (∀ r, State.reset.reg r = 0) ∧ State.reset.I = 0 ∧ State.reset.DT = 0 ∧ State.reset.ST = 0 ∧
  (∀ k : Fin 16, State.reset.stack[k] = 0) ∧ (∀ p, State.reset.pixel p = false) ∧
  State.reset.soundActive = false ∧
  (∀ a < 80, State.reset.mem.read a = Config.defaultFont.getD a 0) ∧
  (∀ a, 80 ≤ a → State.reset.mem.read a = 0)

/-- Loading an image of 1 to 3584 bytes starts the core at `0x200`, Running, with an empty stack, the
font at `0x000`, the image at `0x200`, no output yet, and every other byte and every other piece of
state as it was filled; the first word fetched is the image's first two bytes; other lengths are
refused (70_reset_and_hazards.md R260 to R262, 10_state.md R31; log 13). -/
def Obligations.LoadPlacesFontAndImage : Prop :=
  ∀ (fill : State) (font : Vector Byte 80) (image : List Byte),
    (image.length = 0 → fill.load font image = .error .empty) ∧
    (3584 < image.length → fill.load font image = .error .tooLarge) ∧
    (1 ≤ image.length → image.length ≤ 3584 →
      ∃ s, fill.load font image = .ok s ∧ s.pc = 0x200 ∧ s.sp.val = 0 ∧ s.run = .running ∧
        s.trace = [] ∧ s.display = [] ∧ s.V = fill.V ∧ s.I = fill.I ∧ s.DT = fill.DT ∧
        s.ST = fill.ST ∧ s.stack = fill.stack ∧ s.pix = fill.pix ∧ s.keys = fill.keys ∧
        s.schedule = fill.schedule ∧ s.draws = fill.draws ∧ s.cfg = fill.cfg ∧ (∀ k : Fin 80, s.mem.read k = font[k]) ∧
        (∀ k, ∀ h : k < image.length, s.mem.read (0x200 + k) = image[k]) ∧
        (∀ a, (80 ≤ a ∧ a < 0x200) ∨ 0x200 + image.length ≤ a → s.mem.read a = fill.mem.read a) ∧
        (∀ b₀ b₁ bs, image = b₀ :: b₁ :: bs → s.fetchWord.toNat = b₀.toNat * 256 + b₁.toNat))
end

