-- ==== Sys2Proof/Laws/Decode.lean ====
section
/-! SUPPORT. Fields of encoded words, words rebuilt from their fields. -/

namespace Sys2Proof

theorem fieldOp_formatA (op : Nibble) (a : Addr) : fieldOp (formatA op a) = op := by
  ext i h
  simp only [fieldOp, formatA, BitVec.getElem_extractLsb', BitVec.getLsbD_append]
  grind

theorem fieldNNN_formatA (op : Nibble) (a : Addr) : fieldNNN (formatA op a) = a := by
  ext i h
  simp only [fieldNNN, formatA, BitVec.getElem_extractLsb', BitVec.getLsbD_append]
  grind

theorem fieldOp_formatXK (op : Nibble) (x : Reg) (kk : Byte) : fieldOp (formatXK op x kk) = op := by
  ext i h
  simp only [fieldOp, formatXK, BitVec.getElem_extractLsb', BitVec.getLsbD_append]
  grind

theorem fieldX_formatXK (op : Nibble) (x : Reg) (kk : Byte) : fieldX (formatXK op x kk) = x := by
  have : (formatXK op x kk).extractLsb' 8 4 = BitVec.ofFin (w := 4) x := by
    ext i h
    simp only [formatXK, BitVec.getElem_extractLsb', BitVec.getLsbD_append]
    grind
  rw [fieldX, this]

theorem fieldKK_formatXK (op : Nibble) (x : Reg) (kk : Byte) : fieldKK (formatXK op x kk) = kk := by
  ext i h
  simp only [fieldKK, formatXK, BitVec.getElem_extractLsb', BitVec.getLsbD_append]
  grind

theorem fieldOp_formatXY (op : Nibble) (x y : Reg) (n : Nibble) :
    fieldOp (formatXY op x y n) = op := by
  ext i h
  simp only [fieldOp, formatXY, BitVec.getElem_extractLsb', BitVec.getLsbD_append]
  grind

theorem fieldX_formatXY (op : Nibble) (x y : Reg) (n : Nibble) :
    fieldX (formatXY op x y n) = x := by
  have : (formatXY op x y n).extractLsb' 8 4 = BitVec.ofFin (w := 4) x := by
    ext i h
    simp only [formatXY, BitVec.getElem_extractLsb', BitVec.getLsbD_append]
    grind
  rw [fieldX, this]

theorem fieldY_formatXY (op : Nibble) (x y : Reg) (n : Nibble) :
    fieldY (formatXY op x y n) = y := by
  have : (formatXY op x y n).extractLsb' 4 4 = BitVec.ofFin (w := 4) y := by
    ext i h
    simp only [formatXY, BitVec.getElem_extractLsb', BitVec.getLsbD_append]
    grind
  rw [fieldY, this]

theorem fieldN_formatXY (op : Nibble) (x y : Reg) (n : Nibble) :
    fieldN (formatXY op x y n) = n := by
  ext i h
  simp only [fieldN, formatXY, BitVec.getElem_extractLsb', BitVec.getLsbD_append]
  grind

/-- A word is its family and address. -/
theorem formatA_fields (w : Word) : formatA (fieldOp w) (fieldNNN w) = w := by
  ext i h
  simp only [fieldOp, fieldNNN, formatA, ← BitVec.getLsbD_eq_getElem, BitVec.getLsbD_extractLsb',
    BitVec.getLsbD_append]
  grind

/-- A word is its family, register and byte. -/
theorem formatXK_fields (w : Word) : formatXK (fieldOp w) (fieldX w) (fieldKK w) = w := by
  ext i h
  simp only [fieldOp, fieldX, fieldKK, formatXK, BitVec.ofFin_toFin, ← BitVec.getLsbD_eq_getElem,
    BitVec.getLsbD_extractLsb', BitVec.getLsbD_append]
  grind

/-- A word is its family, two registers and nibble. -/
theorem formatXY_fields (w : Word) : formatXY (fieldOp w) (fieldX w) (fieldY w) (fieldN w) = w := by
  ext i h
  simp only [fieldOp, fieldX, fieldY, fieldN, formatXY, BitVec.ofFin_toFin,
    ← BitVec.getLsbD_eq_getElem, BitVec.getLsbD_extractLsb', BitVec.getLsbD_append]
  grind

/-- The last family of the decoder. -/
theorem decode_of_op_F {w : Word} (h : fieldOp w = 0xF) : decode w = decodeMisc w := by
  unfold decode
  rw [h]
  rfl

/-- The number a word of two bytes is. -/
theorem wordOfBytes_toNat (hi lo : Byte) :
    (wordOfBytes hi lo).toNat = hi.toNat * 256 + lo.toNat := by
  have e : wordOfBytes hi lo = (hi ++ lo : BitVec (8 + 8)) := by
    ext i h
    simp only [wordOfBytes, ← BitVec.getLsbD_eq_getElem, BitVec.getLsbD_or,
      BitVec.getLsbD_shiftLeft, BitVec.getLsbD_setWidth, BitVec.getLsbD_append]
    grind
  rw [e]
  have := @BitVec.toNat_append 8 8 hi lo
  rw [this, ← Nat.shiftLeft_add_eq_or_of_lt lo.isLt, Nat.shiftLeft_eq]

/-- A word is rebuilt from its two bytes. -/
theorem wordOfBytes_extract (w : Word) :
    wordOfBytes (w.extractLsb' 8 8) (w.extractLsb' 0 8) = w := by
  ext i h
  simp only [wordOfBytes, ← BitVec.getLsbD_eq_getElem, BitVec.getLsbD_or, BitVec.getLsbD_shiftLeft,
    BitVec.getLsbD_setWidth, BitVec.getLsbD_extractLsb']
  grind

end Sys2Proof
end

