-- ==== Sys2Proof/Laws/Memory.lean ====
section
/-! SUPPORT. Memory: reading after writing, and the canonical form kept by every operation. -/

namespace Sys2Proof.Machine

theorem Memory.read_insert (c : Host.Cell) (m : Memory) (a : Nat) (h : ∀ d ∈ m, d.1 ≠ c.1) :
    (Memory.insert c m).read a = if c.1 = a then c.2 else m.read a := by
  induction m with
  | nil => simp [Memory.insert, Memory.read]
  | cons d m ih =>
    have hd : d.1 ≠ c.1 := h d (by simp)
    have ih := ih fun e he => h e (by simp [he])
    unfold Memory.insert
    split
    · simp only [Memory.read]
    · simp only [Memory.read, ih]; grind

theorem Memory.read_filter_ne (m : Memory) (a b : Nat) (h : a ≠ b) :
    Memory.read (m.filter fun c => c.1 != b) a = m.read a := by
  induction m with
  | nil => rfl
  | cons c m ih =>
    by_cases hc : c.1 = b
    · simp only [List.filter_cons, hc, bne_self_eq_false, Bool.false_eq_true, if_false, ih, Memory.read]
      rw [if_neg (fun h' => h (h'.symm))]
    · simp [hc, Memory.read, ih]

theorem Memory.read_filter_self (m : Memory) (a : Nat) :
    Memory.read (m.filter fun c => c.1 != a) a = Memory.unlisted a := by
  induction m with
  | nil => rfl
  | cons c m ih =>
    by_cases hc : c.1 = a
    · simpa [hc] using ih
    · simp [hc, Memory.read, ih]

/-- A byte read after a write: the byte written at that address, the old byte elsewhere. -/
theorem Memory.read_write (m : Memory) (a a' : Nat) (b : Byte) :
    (m.write a b).read a' = if a = a' then b else m.read a' := by
  unfold Memory.write
  by_cases h : a = a'
  · subst h
    split
    · simp_all [Memory.read_filter_self]
    · simp [Memory.read_insert]
  · have h' : a' ≠ a := fun e => h e.symm
    split
    · simp [Memory.read_filter_ne _ _ _ h']
    · simp [Memory.read_insert, Memory.read_filter_ne _ _ _ h', h]

theorem Memory.read_write_self (m : Memory) (a : Nat) (b : Byte) : (m.write a b).read a = b := by
  simp [Memory.read_write]

theorem Memory.read_write_of_ne (m : Memory) {a a' : Nat} (b : Byte) (h : a ≠ a') :
    (m.write a b).read a' = m.read a' := by
  simp [Memory.read_write, h]

theorem Memory.mem_insert (c e : Host.Cell) (m : Memory) :
    e ∈ Memory.insert c m ↔ e = c ∨ e ∈ m := by
  induction m with
  | nil => simp [Memory.insert]
  | cons d m ih => unfold Memory.insert; split <;> simp_all; tauto

theorem Memory.insert_sorted (c : Host.Cell) (m : Memory) (h : ∀ d ∈ m, d.1 ≠ c.1)
    (hm : m.Pairwise fun c d => c.1 < d.1) :
    (Memory.insert c m).Pairwise fun c d => c.1 < d.1 := by
  induction m with
  | nil => simp [Memory.insert]
  | cons d m ih =>
    rw [List.pairwise_cons] at hm
    have hd : d.1 ≠ c.1 := h d (by simp)
    unfold Memory.insert
    split
    · rename_i hlt
      refine List.pairwise_cons.2 ⟨?_, List.pairwise_cons.2 hm⟩
      intro e he
      rcases List.mem_cons.1 he with rfl | he
      · exact hlt
      · exact lt_trans hlt (hm.1 e he)
    · refine List.pairwise_cons.2 ⟨?_, ih (fun e he => h e (by simp [he])) hm.2⟩
      intro e he
      rcases (Memory.mem_insert c e m).1 he with rfl | he
      · omega
      · exact hm.1 e he

/-- A write inside the memory keeps the canonical form. -/
theorem Memory.write_wf (m : Memory) (a : Nat) (b : Byte) (ha : a < memSize) (hm : m.wf) :
    (m.write a b).wf := by
  have hs := hm.1.filter fun c => c.1 != a
  have hc : ∀ c ∈ m.filter (fun c => c.1 != a), c.1 < memSize ∧ c.2 ≠ Memory.unlisted c.1 :=
    fun c h => hm.2 c (List.mem_filter.1 h).1
  unfold Memory.write
  split
  · exact ⟨hs, hc⟩
  · rename_i hb
    refine ⟨Memory.insert_sorted _ _ (fun d hd => by simpa using (List.mem_filter.1 hd).2) hs, ?_⟩
    intro c h
    rcases (Memory.mem_insert _ _ _).1 h with rfl | h
    · exact ⟨ha, hb⟩
    · exact hc c h

/-- What a run of written bytes leaves at an address. -/
theorem Memory.read_writeList (m : Memory) (a : Nat) (bs : List Byte) (a' : Nat) :
    (m.writeList a bs).read a' =
      if h : a ≤ a' ∧ a' - a < bs.length then bs[a' - a]'h.2 else m.read a' := by
  induction bs generalizing m a with
  | nil => simp [Memory.writeList]
  | cons b bs ih =>
    rw [Memory.writeList, ih, Memory.read_write]
    by_cases h1 : a + 1 ≤ a' ∧ a' - (a + 1) < bs.length
    · have h2 : a ≤ a' ∧ a' - a < (b :: bs).length := by simp; omega
      rw [dif_pos h1, dif_pos h2]
      have : a' - a = (a' - (a + 1)) + 1 := by omega
      simp [this]
    · rw [dif_neg h1]
      by_cases h3 : a = a'
      · subst h3; simp
      · rw [if_neg h3, dif_neg]
        simp; omega

/-- A run of bytes written inside the memory keeps the canonical form. -/
theorem Memory.writeList_wf (m : Memory) (a : Nat) (bs : List Byte) (ha : a + bs.length ≤ memSize)
    (hm : m.wf) : (m.writeList a bs).wf := by
  induction bs generalizing m a with
  | nil => exact hm
  | cons b bs ih =>
    simp only [List.length_cons] at ha
    exact ih _ _ (by omega) (Memory.write_wf _ _ _ (by omega) hm)

end Sys2Proof.Machine
end

