-- ==== Sys2Proof/Laws/State.lean ====
section
/-! SUPPORT. One lemma per field per update of the state: what each primitive update leaves in each
field, true by `rfl`. -/

namespace Sys2Proof.Machine

variable (s : State)

/-! ## setReg -/

@[simp] theorem State.setReg_V (r : Reg) (b : Byte) : (s.setReg r b).V = s.V.set r b := rfl
@[simp] theorem State.setReg_I (r : Reg) (b : Byte) : (s.setReg r b).I = s.I := rfl
@[simp] theorem State.setReg_pc (r : Reg) (b : Byte) : (s.setReg r b).pc = s.pc := rfl
@[simp] theorem State.setReg_sp (r : Reg) (b : Byte) : (s.setReg r b).sp = s.sp := rfl
@[simp] theorem State.setReg_stack (r : Reg) (b : Byte) : (s.setReg r b).stack = s.stack := rfl
@[simp] theorem State.setReg_DT (r : Reg) (b : Byte) : (s.setReg r b).DT = s.DT := rfl
@[simp] theorem State.setReg_ST (r : Reg) (b : Byte) : (s.setReg r b).ST = s.ST := rfl
@[simp] theorem State.setReg_mem (r : Reg) (b : Byte) : (s.setReg r b).mem = s.mem := rfl
@[simp] theorem State.setReg_pix (r : Reg) (b : Byte) : (s.setReg r b).pix = s.pix := rfl
@[simp] theorem State.setReg_run (r : Reg) (b : Byte) : (s.setReg r b).run = s.run := rfl
@[simp] theorem State.setReg_trace (r : Reg) (b : Byte) : (s.setReg r b).trace = s.trace := rfl
@[simp] theorem State.setReg_display (r : Reg) (b : Byte) : (s.setReg r b).display = s.display := rfl
@[simp] theorem State.setReg_keys (r : Reg) (b : Byte) : (s.setReg r b).keys = s.keys := rfl
@[simp] theorem State.setReg_schedule (r : Reg) (b : Byte) : (s.setReg r b).schedule = s.schedule := rfl
@[simp] theorem State.setReg_draws (r : Reg) (b : Byte) : (s.setReg r b).draws = s.draws := rfl
@[simp] theorem State.setReg_cfg (r : Reg) (b : Byte) : (s.setReg r b).cfg = s.cfg := rfl

/-! ## advance -/

@[simp] theorem State.advance_V : (s.advance).V = s.V := rfl
@[simp] theorem State.advance_I : (s.advance).I = s.I := rfl
@[simp] theorem State.advance_pc : (s.advance).pc = s.pc + 2 := rfl
@[simp] theorem State.advance_sp : (s.advance).sp = s.sp := rfl
@[simp] theorem State.advance_stack : (s.advance).stack = s.stack := rfl
@[simp] theorem State.advance_DT : (s.advance).DT = s.DT := rfl
@[simp] theorem State.advance_ST : (s.advance).ST = s.ST := rfl
@[simp] theorem State.advance_mem : (s.advance).mem = s.mem := rfl
@[simp] theorem State.advance_pix : (s.advance).pix = s.pix := rfl
@[simp] theorem State.advance_run : (s.advance).run = s.run := rfl
@[simp] theorem State.advance_trace : (s.advance).trace = s.trace := rfl
@[simp] theorem State.advance_display : (s.advance).display = s.display := rfl
@[simp] theorem State.advance_keys : (s.advance).keys = s.keys := rfl
@[simp] theorem State.advance_schedule : (s.advance).schedule = s.schedule := rfl
@[simp] theorem State.advance_draws : (s.advance).draws = s.draws := rfl
@[simp] theorem State.advance_cfg : (s.advance).cfg = s.cfg := rfl

/-! ## jumpTo -/

@[simp] theorem State.jumpTo_V (w : Word) : (s.jumpTo w).V = s.V := rfl
@[simp] theorem State.jumpTo_I (w : Word) : (s.jumpTo w).I = s.I := rfl
@[simp] theorem State.jumpTo_pc (w : Word) : (s.jumpTo w).pc = w := rfl
@[simp] theorem State.jumpTo_sp (w : Word) : (s.jumpTo w).sp = s.sp := rfl
@[simp] theorem State.jumpTo_stack (w : Word) : (s.jumpTo w).stack = s.stack := rfl
@[simp] theorem State.jumpTo_DT (w : Word) : (s.jumpTo w).DT = s.DT := rfl
@[simp] theorem State.jumpTo_ST (w : Word) : (s.jumpTo w).ST = s.ST := rfl
@[simp] theorem State.jumpTo_mem (w : Word) : (s.jumpTo w).mem = s.mem := rfl
@[simp] theorem State.jumpTo_pix (w : Word) : (s.jumpTo w).pix = s.pix := rfl
@[simp] theorem State.jumpTo_run (w : Word) : (s.jumpTo w).run = s.run := rfl
@[simp] theorem State.jumpTo_trace (w : Word) : (s.jumpTo w).trace = s.trace := rfl
@[simp] theorem State.jumpTo_display (w : Word) : (s.jumpTo w).display = s.display := rfl
@[simp] theorem State.jumpTo_keys (w : Word) : (s.jumpTo w).keys = s.keys := rfl
@[simp] theorem State.jumpTo_schedule (w : Word) : (s.jumpTo w).schedule = s.schedule := rfl
@[simp] theorem State.jumpTo_draws (w : Word) : (s.jumpTo w).draws = s.draws := rfl
@[simp] theorem State.jumpTo_cfg (w : Word) : (s.jumpTo w).cfg = s.cfg := rfl

/-! ## report -/

@[simp] theorem State.report_V (r : Report) : (s.report r).V = s.V := rfl
@[simp] theorem State.report_I (r : Report) : (s.report r).I = s.I := rfl
@[simp] theorem State.report_pc (r : Report) : (s.report r).pc = s.pc := rfl
@[simp] theorem State.report_sp (r : Report) : (s.report r).sp = s.sp := rfl
@[simp] theorem State.report_stack (r : Report) : (s.report r).stack = s.stack := rfl
@[simp] theorem State.report_DT (r : Report) : (s.report r).DT = s.DT := rfl
@[simp] theorem State.report_ST (r : Report) : (s.report r).ST = s.ST := rfl
@[simp] theorem State.report_mem (r : Report) : (s.report r).mem = s.mem := rfl
@[simp] theorem State.report_pix (r : Report) : (s.report r).pix = s.pix := rfl
@[simp] theorem State.report_run (r : Report) : (s.report r).run = s.run := rfl
@[simp] theorem State.report_trace (r : Report) : (s.report r).trace = s.trace ++ [r] := rfl
@[simp] theorem State.report_display (r : Report) : (s.report r).display = s.display := rfl
@[simp] theorem State.report_keys (r : Report) : (s.report r).keys = s.keys := rfl
@[simp] theorem State.report_schedule (r : Report) : (s.report r).schedule = s.schedule := rfl
@[simp] theorem State.report_draws (r : Report) : (s.report r).draws = s.draws := rfl
@[simp] theorem State.report_cfg (r : Report) : (s.report r).cfg = s.cfg := rfl

/-! ## addressFault -/

@[simp] theorem State.addressFault_V (a : Word) : (s.addressFault a).V = s.V := rfl
@[simp] theorem State.addressFault_I (a : Word) : (s.addressFault a).I = s.I := rfl
@[simp] theorem State.addressFault_pc (a : Word) : (s.addressFault a).pc = s.pc := rfl
@[simp] theorem State.addressFault_sp (a : Word) : (s.addressFault a).sp = s.sp := rfl
@[simp] theorem State.addressFault_stack (a : Word) : (s.addressFault a).stack = s.stack := rfl
@[simp] theorem State.addressFault_DT (a : Word) : (s.addressFault a).DT = s.DT := rfl
@[simp] theorem State.addressFault_ST (a : Word) : (s.addressFault a).ST = s.ST := rfl
@[simp] theorem State.addressFault_mem (a : Word) : (s.addressFault a).mem = s.mem := rfl
@[simp] theorem State.addressFault_pix (a : Word) : (s.addressFault a).pix = s.pix := rfl
@[simp] theorem State.addressFault_run (a : Word) : (s.addressFault a).run = .halted .addressFault := rfl
@[simp] theorem State.addressFault_trace (a : Word) : (s.addressFault a).trace = s.trace ++ [.addressFault a] := rfl
@[simp] theorem State.addressFault_display (a : Word) : (s.addressFault a).display = s.display := rfl
@[simp] theorem State.addressFault_keys (a : Word) : (s.addressFault a).keys = s.keys := rfl
@[simp] theorem State.addressFault_schedule (a : Word) : (s.addressFault a).schedule = s.schedule := rfl
@[simp] theorem State.addressFault_draws (a : Word) : (s.addressFault a).draws = s.draws := rfl
@[simp] theorem State.addressFault_cfg (a : Word) : (s.addressFault a).cfg = s.cfg := rfl

/-! ## writeByte -/

@[simp] theorem State.writeByte_V (a : Word) (b : Byte) : (s.writeByte a b).V = s.V := rfl
@[simp] theorem State.writeByte_I (a : Word) (b : Byte) : (s.writeByte a b).I = s.I := rfl
@[simp] theorem State.writeByte_pc (a : Word) (b : Byte) : (s.writeByte a b).pc = s.pc := rfl
@[simp] theorem State.writeByte_sp (a : Word) (b : Byte) : (s.writeByte a b).sp = s.sp := rfl
@[simp] theorem State.writeByte_stack (a : Word) (b : Byte) : (s.writeByte a b).stack = s.stack := rfl
@[simp] theorem State.writeByte_DT (a : Word) (b : Byte) : (s.writeByte a b).DT = s.DT := rfl
@[simp] theorem State.writeByte_ST (a : Word) (b : Byte) : (s.writeByte a b).ST = s.ST := rfl
@[simp] theorem State.writeByte_mem (a : Word) (b : Byte) : (s.writeByte a b).mem = s.mem.write (cellOf a) b := rfl
@[simp] theorem State.writeByte_pix (a : Word) (b : Byte) : (s.writeByte a b).pix = s.pix := rfl
@[simp] theorem State.writeByte_run (a : Word) (b : Byte) : (s.writeByte a b).run = s.run := rfl
@[simp] theorem State.writeByte_trace (a : Word) (b : Byte) : (s.writeByte a b).trace = s.trace := rfl
@[simp] theorem State.writeByte_display (a : Word) (b : Byte) : (s.writeByte a b).display = s.display := rfl
@[simp] theorem State.writeByte_keys (a : Word) (b : Byte) : (s.writeByte a b).keys = s.keys := rfl
@[simp] theorem State.writeByte_schedule (a : Word) (b : Byte) : (s.writeByte a b).schedule = s.schedule := rfl
@[simp] theorem State.writeByte_draws (a : Word) (b : Byte) : (s.writeByte a b).draws = s.draws := rfl
@[simp] theorem State.writeByte_cfg (a : Word) (b : Byte) : (s.writeByte a b).cfg = s.cfg := rfl

/-! ## issue -/

@[simp] theorem State.issue_V (op : DisplayOp) : (s.issue op).V = s.V := rfl
@[simp] theorem State.issue_I (op : DisplayOp) : (s.issue op).I = s.I := rfl
@[simp] theorem State.issue_pc (op : DisplayOp) : (s.issue op).pc = s.pc := rfl
@[simp] theorem State.issue_sp (op : DisplayOp) : (s.issue op).sp = s.sp := rfl
@[simp] theorem State.issue_stack (op : DisplayOp) : (s.issue op).stack = s.stack := rfl
@[simp] theorem State.issue_DT (op : DisplayOp) : (s.issue op).DT = s.DT := rfl
@[simp] theorem State.issue_ST (op : DisplayOp) : (s.issue op).ST = s.ST := rfl
@[simp] theorem State.issue_mem (op : DisplayOp) : (s.issue op).mem = s.mem := rfl
@[simp] theorem State.issue_pix (op : DisplayOp) : (s.issue op).pix = s.pix := rfl
@[simp] theorem State.issue_run (op : DisplayOp) : (s.issue op).run = s.run := rfl
@[simp] theorem State.issue_trace (op : DisplayOp) : (s.issue op).trace = s.trace := rfl
@[simp] theorem State.issue_display (op : DisplayOp) : (s.issue op).display = s.display ++ [op] := rfl
@[simp] theorem State.issue_keys (op : DisplayOp) : (s.issue op).keys = s.keys := rfl
@[simp] theorem State.issue_schedule (op : DisplayOp) : (s.issue op).schedule = s.schedule := rfl
@[simp] theorem State.issue_draws (op : DisplayOp) : (s.issue op).draws = s.draws := rfl
@[simp] theorem State.issue_cfg (op : DisplayOp) : (s.issue op).cfg = s.cfg := rfl

/-! ## setPixel -/

@[simp] theorem State.setPixel_V (p : Point) (on : Bool) : (s.setPixel p on).V = s.V := rfl
@[simp] theorem State.setPixel_I (p : Point) (on : Bool) : (s.setPixel p on).I = s.I := rfl
@[simp] theorem State.setPixel_pc (p : Point) (on : Bool) : (s.setPixel p on).pc = s.pc := rfl
@[simp] theorem State.setPixel_sp (p : Point) (on : Bool) : (s.setPixel p on).sp = s.sp := rfl
@[simp] theorem State.setPixel_stack (p : Point) (on : Bool) : (s.setPixel p on).stack = s.stack := rfl
@[simp] theorem State.setPixel_DT (p : Point) (on : Bool) : (s.setPixel p on).DT = s.DT := rfl
@[simp] theorem State.setPixel_ST (p : Point) (on : Bool) : (s.setPixel p on).ST = s.ST := rfl
@[simp] theorem State.setPixel_mem (p : Point) (on : Bool) : (s.setPixel p on).mem = s.mem := rfl
@[simp] theorem State.setPixel_pix (p : Point) (on : Bool) : (s.setPixel p on).pix = s.pix.set p.2 (s.pix[p.2].set p.1 on) := rfl
@[simp] theorem State.setPixel_run (p : Point) (on : Bool) : (s.setPixel p on).run = s.run := rfl
@[simp] theorem State.setPixel_trace (p : Point) (on : Bool) : (s.setPixel p on).trace = s.trace := rfl
@[simp] theorem State.setPixel_display (p : Point) (on : Bool) : (s.setPixel p on).display = s.display ++ [.setPixel p on] := rfl
@[simp] theorem State.setPixel_keys (p : Point) (on : Bool) : (s.setPixel p on).keys = s.keys := rfl
@[simp] theorem State.setPixel_schedule (p : Point) (on : Bool) : (s.setPixel p on).schedule = s.schedule := rfl
@[simp] theorem State.setPixel_draws (p : Point) (on : Bool) : (s.setPixel p on).draws = s.draws := rfl
@[simp] theorem State.setPixel_cfg (p : Point) (on : Bool) : (s.setPixel p on).cfg = s.cfg := rfl

/-! ## clearPixels -/

@[simp] theorem State.clearPixels_V : (s.clearPixels).V = s.V := rfl
@[simp] theorem State.clearPixels_I : (s.clearPixels).I = s.I := rfl
@[simp] theorem State.clearPixels_pc : (s.clearPixels).pc = s.pc := rfl
@[simp] theorem State.clearPixels_sp : (s.clearPixels).sp = s.sp := rfl
@[simp] theorem State.clearPixels_stack : (s.clearPixels).stack = s.stack := rfl
@[simp] theorem State.clearPixels_DT : (s.clearPixels).DT = s.DT := rfl
@[simp] theorem State.clearPixels_ST : (s.clearPixels).ST = s.ST := rfl
@[simp] theorem State.clearPixels_mem : (s.clearPixels).mem = s.mem := rfl
@[simp] theorem State.clearPixels_pix : (s.clearPixels).pix = Vector.replicate 32 (Vector.replicate 64 false) := rfl
@[simp] theorem State.clearPixels_run : (s.clearPixels).run = s.run := rfl
@[simp] theorem State.clearPixels_trace : (s.clearPixels).trace = s.trace := rfl
@[simp] theorem State.clearPixels_display : (s.clearPixels).display = s.display ++ [.clear] := rfl
@[simp] theorem State.clearPixels_keys : (s.clearPixels).keys = s.keys := rfl
@[simp] theorem State.clearPixels_schedule : (s.clearPixels).schedule = s.schedule := rfl
@[simp] theorem State.clearPixels_draws : (s.clearPixels).draws = s.draws := rfl
@[simp] theorem State.clearPixels_cfg : (s.clearPixels).cfg = s.cfg := rfl

/-! ## tick -/

@[simp] theorem State.tick_V : (s.tick).V = s.V := rfl
@[simp] theorem State.tick_I : (s.tick).I = s.I := rfl
@[simp] theorem State.tick_pc : (s.tick).pc = s.pc := rfl
@[simp] theorem State.tick_sp : (s.tick).sp = s.sp := rfl
@[simp] theorem State.tick_stack : (s.tick).stack = s.stack := rfl
@[simp] theorem State.tick_DT : (s.tick).DT = countDown s.DT := rfl
@[simp] theorem State.tick_ST : (s.tick).ST = countDown s.ST := rfl
@[simp] theorem State.tick_mem : (s.tick).mem = s.mem := rfl
@[simp] theorem State.tick_pix : (s.tick).pix = s.pix := rfl
@[simp] theorem State.tick_run : (s.tick).run = s.run := rfl
@[simp] theorem State.tick_trace : (s.tick).trace = s.trace := rfl
@[simp] theorem State.tick_display : (s.tick).display = s.display ++ [.present] := rfl
@[simp] theorem State.tick_keys : (s.tick).keys = s.keys := rfl
@[simp] theorem State.tick_schedule : (s.tick).schedule = s.schedule := rfl
@[simp] theorem State.tick_draws : (s.tick).draws = s.draws := rfl
@[simp] theorem State.tick_cfg : (s.tick).cfg = s.cfg := rfl

/-! ## quit -/

@[simp] theorem State.quit_V : (s.quit).V = s.V := rfl
@[simp] theorem State.quit_I : (s.quit).I = s.I := rfl
@[simp] theorem State.quit_pc : (s.quit).pc = s.pc := rfl
@[simp] theorem State.quit_sp : (s.quit).sp = s.sp := rfl
@[simp] theorem State.quit_stack : (s.quit).stack = s.stack := rfl
@[simp] theorem State.quit_DT : (s.quit).DT = s.DT := rfl
@[simp] theorem State.quit_ST : (s.quit).ST = s.ST := rfl
@[simp] theorem State.quit_mem : (s.quit).mem = s.mem := rfl
@[simp] theorem State.quit_pix : (s.quit).pix = s.pix := rfl
@[simp] theorem State.quit_run : (s.quit).run = .halted .quit := rfl
@[simp] theorem State.quit_trace : (s.quit).trace = s.trace := rfl
@[simp] theorem State.quit_display : (s.quit).display = s.display := rfl
@[simp] theorem State.quit_keys : (s.quit).keys = s.keys := rfl
@[simp] theorem State.quit_schedule : (s.quit).schedule = s.schedule := rfl
@[simp] theorem State.quit_draws : (s.quit).draws = s.draws := rfl
@[simp] theorem State.quit_cfg : (s.quit).cfg = s.cfg := rfl

/-! ## holdKeys -/

@[simp] theorem State.holdKeys_V (held : Vector Bool 16) : (s.holdKeys held).V = s.V := rfl
@[simp] theorem State.holdKeys_I (held : Vector Bool 16) : (s.holdKeys held).I = s.I := rfl
@[simp] theorem State.holdKeys_pc (held : Vector Bool 16) : (s.holdKeys held).pc = s.pc := rfl
@[simp] theorem State.holdKeys_sp (held : Vector Bool 16) : (s.holdKeys held).sp = s.sp := rfl
@[simp] theorem State.holdKeys_stack (held : Vector Bool 16) : (s.holdKeys held).stack = s.stack := rfl
@[simp] theorem State.holdKeys_DT (held : Vector Bool 16) : (s.holdKeys held).DT = s.DT := rfl
@[simp] theorem State.holdKeys_ST (held : Vector Bool 16) : (s.holdKeys held).ST = s.ST := rfl
@[simp] theorem State.holdKeys_mem (held : Vector Bool 16) : (s.holdKeys held).mem = s.mem := rfl
@[simp] theorem State.holdKeys_pix (held : Vector Bool 16) : (s.holdKeys held).pix = s.pix := rfl
@[simp] theorem State.holdKeys_run (held : Vector Bool 16) : (s.holdKeys held).run = s.run := rfl
@[simp] theorem State.holdKeys_trace (held : Vector Bool 16) : (s.holdKeys held).trace = s.trace := rfl
@[simp] theorem State.holdKeys_display (held : Vector Bool 16) : (s.holdKeys held).display = s.display := rfl
@[simp] theorem State.holdKeys_keys (held : Vector Bool 16) : (s.holdKeys held).keys = held := rfl
@[simp] theorem State.holdKeys_schedule (held : Vector Bool 16) : (s.holdKeys held).schedule = s.schedule := rfl
@[simp] theorem State.holdKeys_draws (held : Vector Bool 16) : (s.holdKeys held).draws = s.draws := rfl
@[simp] theorem State.holdKeys_cfg (held : Vector Bool 16) : (s.holdKeys held).cfg = s.cfg := rfl

end Sys2Proof.Machine
end

