-- ==== Sys2Proof/Laws/Ops.lean ====
section
/-! SUPPORT. What each shared operation can do, said once. -/

namespace Sys2Proof.Machine

/-! ## Registers -/

theorem State.setReg_reg (s : State) (r q : Reg) (b : Byte) :
    (s.setReg r b).reg q = if r = q then b else s.reg q := by
  simp only [State.reg, State.setReg, Fin.getElem_fin, Vector.getElem_set, Fin.ext_iff]

@[simp] theorem State.setReg_reg_self (s : State) (r : Reg) (b : Byte) :
    (s.setReg r b).reg r = b := by simp [State.setReg_reg]

theorem State.setReg_reg_of_ne (s : State) {r q : Reg} (b : Byte) (h : r ≠ q) :
    (s.setReg r b).reg q = s.reg q := by simp [State.setReg_reg, h]

/-- Registers depend on the register file alone. -/
theorem State.reg_congr {s t : State} (h : t.V = s.V) (r : Reg) : t.reg r = s.reg r := by
  simp [State.reg, h]

/-- Pixels depend on the grid alone. -/
theorem State.pixel_congr {s t : State} (h : t.pix = s.pix) (p : Point) : t.pixel p = s.pixel p := by
  simp [State.pixel, h]

/-- Bytes depend on the memory alone. -/
theorem State.readByte_congr {s t : State} (h : t.mem = s.mem) (a : Word) :
    t.readByte a = s.readByte a := by
  simp [State.readByte, h]

/-- A run of register writes changes the register file only. -/
theorem State.setRegsFrom_eq (s : State) (k : Nat) (bs : List Byte) :
    s.setRegsFrom k bs = { s with V := (s.setRegsFrom k bs).V } := by
  induction bs generalizing s k with
  | nil => rfl
  | cons b bs ih =>
    rw [State.setRegsFrom]
    split <;> exact ih _ _

/-- What a run of register writes leaves in a register. -/
theorem State.setRegsFrom_reg (s : State) (k : Nat) (bs : List Byte) (r : Reg) :
    (s.setRegsFrom k bs).reg r =
      if h : k ≤ r.val ∧ r.val - k < bs.length then bs[r.val - k]'h.2 else s.reg r := by
  induction bs generalizing s k with
  | nil => simp [State.setRegsFrom]
  | cons b bs ih =>
    rw [State.setRegsFrom, ih]
    have hr := r.isLt
    by_cases h1 : k + 1 ≤ r.val ∧ r.val - (k + 1) < bs.length
    · have h2 : k ≤ r.val ∧ r.val - k < (b :: bs).length := by simp; omega
      rw [dif_pos h1, dif_pos h2]
      have : r.val - k = (r.val - (k + 1)) + 1 := by omega
      simp [this]
    · rw [dif_neg h1]
      by_cases hk : k < 16
      · rw [dif_pos hk, State.setReg_reg]
        by_cases h3 : (⟨k, hk⟩ : Reg) = r
        · subst h3; simp
        · rw [if_neg h3, dif_neg]
          have : k ≠ r.val := fun e => h3 (Fin.ext e)
          simp; omega
      · rw [dif_neg hk, dif_neg]
        simp; omega

theorem State.regsUpTo_length (s : State) (x : Reg) : (s.regsUpTo x).length = x.val + 1 := by
  simp [State.regsUpTo]

theorem State.regsUpTo_getElem (s : State) (x : Reg) (k : Nat) (h : k < (s.regsUpTo x).length) :
    (s.regsUpTo x)[k] = s.reg ⟨k, by rw [State.regsUpTo_length] at h; omega⟩ := by
  simp [State.regsUpTo, State.reg]

/-! ## Memory accesses -/

theorem cellOf_lt (a : Word) : cellOf a < memSize := Nat.mod_lt _ (by decide)

/-- The cell `k` places up, the sum taken in 16 bits or not. -/
theorem cellOf_add (a : Word) (k : Nat) :
    cellOf (a + BitVec.ofNat 16 k) = (a.toNat + k) % memSize := by
  have hm : memSize = 4096 := rfl
  simp only [cellOf, BitVec.toNat_add, BitVec.toNat_ofNat, hm]
  omega

theorem cellOf_of_lt (a : Word) (h : a.toNat < memSize) : cellOf a = a.toNat := Nat.mod_eq_of_lt h

/-- Everything `accessing` can do. -/
theorem State.accessing_cases (s : State) (as : List Word) (t u : State)
    (h : s.accessing as t = .next u) :
    (∃ a ∈ as, outOfRange s.cfg.addrPolicy a = true ∧ u = s.addressFault a) ∨
      ((∀ a ∈ as, outOfRange s.cfg.addrPolicy a = false) ∧ u = t) := by
  unfold State.accessing at h
  split at h
  · rename_i a ha
    exact .inl ⟨a, List.mem_of_find?_eq_some ha, List.find?_some ha, by injection h with h; exact h.symm⟩
  · rename_i ha
    refine .inr ⟨fun a hm => ?_, by injection h with h; exact h.symm⟩
    simpa using List.find?_eq_none.1 ha a hm

/-- When every address exists, the effect happens. -/
theorem State.accessing_of_inRange (s : State) (as : List Word) (t : State)
    (h : ∀ a ∈ as, outOfRange s.cfg.addrPolicy a = false) : s.accessing as t = .next t := by
  have : firstOutOfRange s.cfg.addrPolicy as = none :=
    List.find?_eq_none.2 fun a hm => by simp [h a hm]
  simp [State.accessing, this]

/-- Under wrap12 every address exists. -/
@[simp] theorem outOfRange_wrap12 (a : Word) : outOfRange .wrap12 a = false := rfl

theorem outOfRange_fault (a : Word) : outOfRange .fault a = decide (memSize ≤ a.toNat) := by
  simp [outOfRange]

/-- A span inside the memory exists under either policy. -/
theorem span_inRange (p : AddrPolicy) (a : Word) (n : Nat)
    (h : p = .fault → a.toNat + n ≤ memSize) : ∀ b ∈ span a n, outOfRange p b = false := by
  intro b hb
  cases p with
  | wrap12 => rfl
  | fault =>
    obtain ⟨k, hk, rfl⟩ := List.mem_map.1 hb
    have hk := List.mem_range.1 hk
    have := h rfl
    have hm : memSize = 4096 := rfl
    rw [outOfRange_fault, decide_eq_false_iff_not, BitVec.toNat_add, BitVec.toNat_ofNat]
    omega

/-- A span that leaves the memory under policy fault: the first missing address is the later of
its start and `0x1000`. -/
theorem firstOutOfRange_span (a : Word) (n : Nat) (hn : 0 < n) (hn' : n ≤ 16)
    (h : memSize < a.toNat + n) :
    firstOutOfRange .fault (span a n) = some (if memSize ≤ a.toNat then a else 0x1000) := by
  have hm : memSize = 4096 := rfl
  by_cases ha : memSize ≤ a.toNat
  · obtain ⟨n, rfl⟩ : ∃ k, n = k + 1 := ⟨n - 1, by omega⟩
    simp [firstOutOfRange, span, List.range_succ_eq_map, outOfRange_fault, ha]
  · rw [if_neg ha]
    have hk : 0x1000 - a.toNat < n := by omega
    refine List.find?_eq_some_iff_getElem.2 ⟨by decide, 0x1000 - a.toNat, by simpa [span] using hk, ?_, ?_⟩
    · simp only [span, List.getElem_map, List.getElem_range]
      apply BitVec.eq_of_toNat_eq
      rw [BitVec.toNat_add, BitVec.toNat_ofNat]
      simp; omega
    · intro j hj
      simp only [span, List.getElem_map, List.getElem_range, outOfRange_fault, BitVec.toNat_add,
        BitVec.toNat_ofNat]
      simp; omega

/-- A run of stores changes the memory only. -/
theorem State.writeBytes_eq (s : State) (a : Word) (bs : List Byte) :
    s.writeBytes a bs = { s with mem := (s.writeBytes a bs).mem } := by
  induction bs generalizing s a with
  | nil => rfl
  | cons b bs ih => rw [State.writeBytes, ih]; rfl

/-- Stores keep the canonical form. -/
theorem State.writeBytes_wf (s : State) (a : Word) (bs : List Byte) (h : s.mem.wf) :
    (s.writeBytes a bs).mem.wf := by
  induction bs generalizing s a with
  | nil => exact h
  | cons b bs ih => exact ih _ _ (Memory.write_wf _ _ _ (cellOf_lt a) h)

/-- A cell that is none of those stored to reads as before. -/
theorem State.writeBytes_read_of_not_mem (s : State) (a : Word) (bs : List Byte) (c : Nat)
    (h : ∀ k < bs.length, cellOf (a + BitVec.ofNat 16 k) ≠ c) :
    (s.writeBytes a bs).mem.read c = s.mem.read c := by
  induction bs generalizing s a with
  | nil => rfl
  | cons b bs ih =>
    have h0 : cellOf a ≠ c := by simpa using h 0 (by simp)
    rw [State.writeBytes, ih]
    · simp [Memory.read_write, h0]
    · intro k hk
      have := h (k + 1) (by simpa using hk)
      have e : a + 1 + BitVec.ofNat 16 k = a + BitVec.ofNat 16 (k + 1) := by
        rw [BitVec.ofNat_add, BitVec.add_assoc, BitVec.add_comm 1]; rfl
      rwa [e]

/-- Cells of different offsets below 4096 are different. -/
theorem cellOf_add_ne (a : Word) {j k : Nat} (hj : j < memSize) (hk : k < memSize) (h : j ≠ k) :
    cellOf (a + BitVec.ofNat 16 j) ≠ cellOf (a + BitVec.ofNat 16 k) := by
  have hm : memSize = 4096 := rfl
  simp only [cellOf, BitVec.toNat_add, BitVec.toNat_ofNat, hm] at *
  omega

/-- A stored byte reads back. -/
theorem State.writeBytes_read (s : State) (a : Word) (bs : List Byte) (hl : bs.length ≤ memSize)
    (k : Nat) (hk : k < bs.length) :
    (s.writeBytes a bs).mem.read (cellOf (a + BitVec.ofNat 16 k)) = bs[k] := by
  induction bs generalizing s a k with
  | nil => simp at hk
  | cons b bs ih =>
    have hm : memSize = 4096 := rfl
    simp only [List.length_cons] at hl hk
    have e : ∀ j, a + 1 + BitVec.ofNat 16 j = a + BitVec.ofNat 16 (j + 1) := fun j => by
      rw [BitVec.ofNat_add, BitVec.add_assoc, BitVec.add_comm 1]; rfl
    rw [State.writeBytes]
    cases k with
    | zero =>
      rw [State.writeBytes_read_of_not_mem]
      · simp [Memory.read_write]
      · intro j hj
        rw [e]
        exact cellOf_add_ne a (by omega) (by omega) (by omega)
    | succ k =>
      rw [← e]
      simpa using ih (s.writeByte a b) (a + 1) (by omega) k (by omega)

theorem State.readBytes_length (s : State) (a : Word) (n : Nat) : (s.readBytes a n).length = n := by
  simp [State.readBytes, span]

theorem State.readBytes_getElem (s : State) (a : Word) (n k : Nat)
    (h : k < (s.readBytes a n).length) :
    (s.readBytes a n)[k] = s.readByte (a + BitVec.ofNat 16 k) := by
  simp [State.readBytes, span]

/-! ## Skips, calls, returns -/

theorem State.skipIf_eq (s : State) (c : Bool) :
    s.skipIf c = { s with pc := if c then s.pc + 2 else s.pc } := by
  cases c <;> rfl

/-- Everything a call can do. -/
theorem State.callTo_cases (s : State) (w : Word) :
    (∃ h : s.sp.val < 16, s.callTo w =
        { s with stack := s.stack.set s.sp.val s.pc h, sp := ⟨s.sp.val + 1, by omega⟩, pc := w }) ∨
      (s.sp.val = 16 ∧ s.callTo w = s.report .stackOverflow) := by
  unfold State.callTo
  split
  · exact .inl ⟨by assumption, rfl⟩
  · exact .inr ⟨by have := s.sp.isLt; omega, rfl⟩

/-- Everything a return can do. -/
theorem State.returnFrom_cases (s : State) :
    (∃ h : 0 < s.sp.val, s.returnFrom =
        { s with sp := ⟨s.sp.val - 1, by omega⟩, pc := s.stack[s.sp.val - 1]'(by omega) }) ∨
      (s.sp.val = 0 ∧ s.returnFrom = s.report .stackUnderflow) := by
  unfold State.returnFrom
  split
  · exact .inl ⟨by assumption, rfl⟩
  · exact .inr ⟨by omega, rfl⟩

/-! ## Inputs -/

/-- Everything a key test can do. -/
theorem State.pressed_cases (s : State) (b : Byte) :
    (∃ h : b.toNat < 16, s.pressed b = (s.keyDown ⟨b.toNat, h⟩, s)) ∨
      (16 ≤ b.toNat ∧ s.pressed b = (Config.keyOor s.draws b, { s with draws := s.draws + 1 })) := by
  unfold State.pressed
  split
  · exact .inl ⟨by assumption, rfl⟩
  · exact .inr ⟨by omega, rfl⟩

end Sys2Proof.Machine
end

