-- ==== Sys2Proof/Laws/Draw.lean ====
section
/-! SUPPORT. The pixel arbiter: one drawn bit, a list of drawn bits, the points of a sprite. -/

namespace Sys2Proof.Machine

theorem State.setPixel_pixel (s : State) (p q : Point) (on : Bool) :
    (s.setPixel p on).pixel q = if p = q then on else s.pixel q := by
  obtain ⟨px, py⟩ := p
  obtain ⟨qx, qy⟩ := q
  simp only [State.pixel, State.setPixel_pix, Fin.getElem_fin, Vector.getElem_set, Prod.mk.injEq,
    Fin.ext_iff]
  by_cases h1 : (py : Nat) = qy <;> by_cases h2 : (px : Nat) = qx <;>
    simp [h1, h2]

theorem State.setReg_pixel (s : State) (r : Reg) (b : Byte) (q : Point) :
    (s.setReg r b).pixel q = s.pixel q := rfl

/-- One drawn bit inverts its own pixel. -/
theorem State.xorPixel_pixel (s : State) (p q : Point) :
    (s.xorPixel p).pixel q = if p = q then !s.pixel q else s.pixel q := by
  unfold State.xorPixel
  have h : ((s.issue (.getPixel p)).setPixel p (!s.pixel p)).pixel q =
      if p = q then !s.pixel q else s.pixel q := by
    rw [State.setPixel_pixel]
    by_cases h : p = q
    · subst h; simp
    · simp only [h, if_false]; rfl
  split <;> simpa [State.setReg_pixel] using h

/-- One drawn bit sets the flag register to 1 on a collision and writes no other register. -/
theorem State.xorPixel_reg (s : State) (p : Point) (r : Reg) :
    (s.xorPixel p).reg r = if r = flagReg ∧ s.pixel p = true then 1 else s.reg r := by
  unfold State.xorPixel
  by_cases hp : s.pixel p = true
  · simp only [hp, if_true, and_true]
    rw [State.setReg_reg]
    by_cases hr : r = flagReg
    · simp [hr]
    · rw [if_neg (fun h => hr h.symm), if_neg hr]; rfl
  · rw [if_neg hp, if_neg fun h => hp h.2]
    rfl

/-- One drawn bit changes the registers, the grid and the display record only. -/
theorem State.xorPixel_eq (s : State) (p : Point) :
    s.xorPixel p = { s with V := (s.xorPixel p).V, pix := (s.xorPixel p).pix,
                            display := (s.xorPixel p).display } := by
  unfold State.xorPixel
  split <;> rfl

/-- Drawing changes the registers, the grid and the display record only. -/
theorem State.foldl_xorPixel_eq (s : State) (ps : List Point) :
    ps.foldl State.xorPixel s =
      { s with V := (ps.foldl State.xorPixel s).V, pix := (ps.foldl State.xorPixel s).pix,
               display := (ps.foldl State.xorPixel s).display } := by
  induction ps generalizing s with
  | nil => rfl
  | cons p ps ih =>
    rw [List.foldl_cons, ih, State.xorPixel_eq]

/-- Drawing distinct points inverts exactly those. -/
theorem State.foldl_xorPixel_pixel (s : State) (ps : List Point) (h : ps.Nodup) (q : Point) :
    (ps.foldl State.xorPixel s).pixel q = (s.pixel q ^^ decide (q ∈ ps)) := by
  induction ps generalizing s with
  | nil => simp
  | cons p ps ih =>
    rw [List.nodup_cons] at h
    rw [List.foldl_cons, ih _ h.2, State.xorPixel_pixel]
    by_cases hq : p = q
    · subst hq; simp [h.1]
    · simp [hq, Ne.symm hq]

/-- Drawing distinct points sets the flag exactly when one of them was on. -/
theorem State.foldl_xorPixel_flag (s : State) (ps : List Point) (h : ps.Nodup) :
    (ps.foldl State.xorPixel s).reg flagReg =
      if ∃ p ∈ ps, s.pixel p = true then 1 else s.reg flagReg := by
  induction ps generalizing s with
  | nil => simp
  | cons p ps ih =>
    rw [List.nodup_cons] at h
    rw [List.foldl_cons, ih _ h.2]
    have hp : ∀ q ∈ ps, (s.xorPixel p).pixel q = s.pixel q := fun q hq => by
      rw [State.xorPixel_pixel, if_neg]; rintro rfl; exact h.1 hq
    have : (∃ q ∈ ps, (s.xorPixel p).pixel q = true) ↔ ∃ q ∈ ps, s.pixel q = true :=
      exists_congr fun q => and_congr_right fun hq => by rw [hp q hq]
    simp only [this, State.xorPixel_reg, List.mem_cons, exists_eq_or_imp, true_and]
    by_cases h1 : ∃ q ∈ ps, s.pixel q = true
    · rw [if_pos h1, if_pos (.inr h1)]
    · rw [if_neg h1]
      exact if_congr ⟨.inl, fun h => h.resolve_right h1⟩ rfl rfl

/-- Drawing writes no register but the flag register. -/
theorem State.foldl_xorPixel_reg (s : State) (ps : List Point) (r : Reg) (h : r ≠ flagReg) :
    (ps.foldl State.xorPixel s).reg r = s.reg r := by
  induction ps generalizing s with
  | nil => rfl
  | cons p ps ih => rw [List.foldl_cons, ih, State.xorPixel_reg]; simp [h]

theorem onGrid_eq_some (px py : Nat) (p : Point) :
    onGrid px py = some p ↔ px = p.1.val ∧ py = p.2.val := by
  obtain ⟨⟨a, ha⟩, ⟨b, hb⟩⟩ := p
  unfold onGrid
  split
  · simp [Prod.ext_iff]
  · simp; omega

theorem mem_rowPoints (xs py : Nat) (b : Byte) (p : Point) :
    p ∈ rowPoints xs py b ↔
      py = p.2.val ∧ ∃ c < 8, xs + c = p.1.val ∧ b.getLsbD (7 - c) = true := by
  simp only [rowPoints, List.mem_filterMap, List.mem_range]
  constructor
  · rintro ⟨c, hc, h⟩
    split at h
    · obtain ⟨h1, h2⟩ := (onGrid_eq_some _ _ _).1 h
      exact ⟨h2, c, hc, h1, by assumption⟩
    · simp at h
  · rintro ⟨h2, c, hc, h1, hb⟩
    exact ⟨c, hc, by rw [if_pos hb]; exact (onGrid_eq_some _ _ _).2 ⟨h1, h2⟩⟩

theorem mem_spritePoints (xs py : Nat) (rows : List Byte) (p : Point) :
    p ∈ spritePoints xs py rows ↔
      ∃ r, ∃ h : r < rows.length, py + r = p.2.val ∧
        ∃ c < 8, xs + c = p.1.val ∧ (rows[r]'h).getLsbD (7 - c) = true := by
  induction rows generalizing py with
  | nil => simp [spritePoints]
  | cons b rows ih =>
    simp only [spritePoints, List.mem_append, mem_rowPoints, ih]
    constructor
    · rintro (⟨h, hc⟩ | ⟨r, hr, h, hc⟩)
      · exact ⟨0, by simp, by omega, by simpa using hc⟩
      · exact ⟨r + 1, by simpa using hr, by omega, by simpa using hc⟩
    · rintro ⟨r, hr, h, hc⟩
      cases r with
      | zero => exact .inl ⟨by omega, by simpa using hc⟩
      | succ r => exact .inr ⟨r, by simpa using hr, by omega, by simpa using hc⟩

theorem rowPoints_nodup (xs py : Nat) (b : Byte) : (rowPoints xs py b).Nodup := by
  refine List.Nodup.filterMap ?_ List.nodup_range
  intro c c' p hc hc'
  simp only [Option.mem_def] at hc hc'
  split at hc <;> split at hc' <;> simp_all [onGrid_eq_some]
  omega

/-- No two bits of a sprite fall on one point (47_draw.md R185). -/
theorem spritePoints_nodup (xs py : Nat) (rows : List Byte) : (spritePoints xs py rows).Nodup := by
  induction rows generalizing py with
  | nil => simp [spritePoints]
  | cons b rows ih =>
    refine List.nodup_append.2 ⟨rowPoints_nodup _ _ _, ih _, ?_⟩
    rintro p hp q hq rfl
    have h1 := ((mem_rowPoints _ _ _ _).1 hp).1
    obtain ⟨r, _, h2, _⟩ := (mem_spritePoints _ _ _ _).1 hq
    omega

/-- A drawn sprite changes the registers, the grid and the display record only. -/
theorem State.drawSprite_eq (s : State) (x y : Reg) (n : Nat) :
    s.drawSprite x y n =
      { s with V := (s.drawSprite x y n).V, pix := (s.drawSprite x y n).pix,
               display := (s.drawSprite x y n).display } := by
  unfold State.drawSprite
  exact State.foldl_xorPixel_eq _ _

/-- A drawn sprite writes no register but the flag register. -/
theorem State.drawSprite_reg (s : State) (x y : Reg) (n : Nat) (r : Reg) (h : r ≠ flagReg) :
    (s.drawSprite x y n).reg r = s.reg r := by
  unfold State.drawSprite
  rw [State.foldl_xorPixel_reg _ _ _ h, State.setReg_reg_of_ne _ _ (Ne.symm h)]

end Sys2Proof.Machine
end

