-- ==== Sys2Proof/Laws/Flags.lean ====
section
/-! SUPPORT. The two ways family 8 writes its result and flag, said once. -/

namespace Sys2Proof.Machine

/-- The flag register is register 15. -/
theorem flagReg_eq : flagReg = 15 := rfl

theorem flagByte_toNat (c : Bool) : (flagByte c).toNat = if c then 1 else 0 := by cases c <;> rfl

/-- Everything `writeFlagged` can do, under either setting of the quirk: the result goes to `x` first
and the flag to the flag register last, so for `x` the flag register only the flag is left. -/
theorem State.writeFlagged_reg (s : State) (x : Reg) (r : Byte × Bool) (q : Reg) :
    (s.writeFlagged x r).reg q =
      if q = flagReg then flagByte r.2 else if q = x then r.1 else s.reg q := by
  rw [State.writeFlagged, State.setReg_reg]
  by_cases hq : q = flagReg
  · rw [if_pos hq.symm, if_pos hq]
  · rw [if_neg (Ne.symm hq), if_neg hq]
    split
    · rename_i h
      rw [if_neg fun e => hq (e.trans h.1)]
    · rw [State.setReg_reg]
      exact if_congr ⟨Eq.symm, Eq.symm⟩ rfl rfl

/-- `writeFlagged` changes the register file only. -/
theorem State.writeFlagged_eq (s : State) (x : Reg) (r : Byte × Bool) :
    s.writeFlagged x r = { s with V := (s.writeFlagged x r).V } := by
  unfold State.writeFlagged
  split <;> rfl

/-- Everything `writeLogic` can do. -/
theorem State.writeLogic_reg (s : State) (x : Reg) (b : Byte) (q : Reg) :
    (s.writeLogic x b).reg q =
      if s.cfg.logicClearsVF = true ∧ q = flagReg then 0 else if q = x then b else s.reg q := by
  have hx : (if x = q then b else s.reg q) = if q = x then b else s.reg q :=
    if_congr ⟨Eq.symm, Eq.symm⟩ rfl rfl
  rw [State.writeLogic]
  split
  · rename_i h
    rw [State.setReg_reg, State.setReg_reg, hx]
    exact if_congr ⟨fun e => ⟨h, e.symm⟩, fun e => e.2.symm⟩ rfl rfl
  · rename_i h
    rw [State.setReg_reg, hx]
    exact (if_neg fun e => h e.1).symm

/-- `writeLogic` changes the register file only. -/
theorem State.writeLogic_eq (s : State) (x : Reg) (b : Byte) :
    s.writeLogic x b = { s with V := (s.writeLogic x b).V } := by
  unfold State.writeLogic
  split <;> rfl

end Sys2Proof.Machine
end

