-- ==== Sys2Proof/Laws/PerInstr.lean ====
section
/-! SUPPORT. Per-instruction families of LAWS.json. `SelectsRow`: the word the encoder gives
selects the instruction's own row of the opcode table (spec/30_encoding.md R73). -/

namespace Sys2Proof.Laws.SelectsRow

/-- The word of `i` selects the row of `i`. -/
def Statement (i : Instr) : Prop := i.row.selects (encode i) = true

theorem selects_of (pattern mask w : Word) (h : w &&& mask = pattern) :
    Row.selects ⟨pattern, mask⟩ w = true := by simpa [Row.selects] using h

theorem formatA_mask (op : Nibble) (a : Addr) : formatA op a &&& 0xF000 = formatA op 0 := by
  have e : (0xF000#16 : Word) = (BitVec.allOnes 4 ++ 0#12 : Word) := by decide
  show formatA op a &&& 0xF000#16 = _
  rw [e]
  ext i h
  simp only [formatA, ← BitVec.getLsbD_eq_getElem, BitVec.getLsbD_and, BitVec.getLsbD_append, BitVec.getLsbD_allOnes]
  grind

theorem formatXK_mask (op : Nibble) (x : Reg) (kk : Byte) :
    formatXK op x kk &&& 0xF000 = formatXK op 0 0 := by
  have e : (0xF000#16 : Word) = (BitVec.allOnes 4 ++ 0#4 ++ 0#8 : Word) := by decide
  show formatXK op x kk &&& 0xF000#16 = _
  rw [e]
  ext i h
  simp only [formatXK, ← BitVec.getLsbD_eq_getElem, BitVec.getLsbD_and, BitVec.getLsbD_append, BitVec.getLsbD_allOnes]
  grind

theorem formatXS_mask (op : Nibble) (x : Reg) (kk : Byte) :
    formatXK op x kk &&& 0xF0FF = formatXK op 0 kk := by
  have e : (0xF0FF#16 : Word) = (BitVec.allOnes 4 ++ 0#4 ++ BitVec.allOnes 8 : Word) := by decide
  show formatXK op x kk &&& 0xF0FF#16 = _
  rw [e]
  ext i h
  simp only [formatXK, ← BitVec.getLsbD_eq_getElem, BitVec.getLsbD_and, BitVec.getLsbD_append, BitVec.getLsbD_allOnes]
  grind

theorem formatXY_mask (op : Nibble) (x y : Reg) (n : Nibble) :
    formatXY op x y n &&& 0xF000 = formatXY op 0 0 0 := by
  have e : (0xF000#16 : Word) = (BitVec.allOnes 4 ++ 0#4 ++ 0#4 ++ 0#4 : Word) := by decide
  show formatXY op x y n &&& 0xF000#16 = _
  rw [e]
  ext i h
  simp only [formatXY, ← BitVec.getLsbD_eq_getElem, BitVec.getLsbD_and, BitVec.getLsbD_append, BitVec.getLsbD_allOnes]
  grind

theorem formatXYS_mask (op : Nibble) (x y : Reg) (n : Nibble) :
    formatXY op x y n &&& 0xF00F = formatXY op 0 0 n := by
  have e : (0xF00F#16 : Word) = (BitVec.allOnes 4 ++ 0#4 ++ 0#4 ++ BitVec.allOnes 4 : Word) := by decide
  show formatXY op x y n &&& 0xF00F#16 = _
  rw [e]
  ext i h
  simp only [formatXY, ← BitVec.getLsbD_eq_getElem, BitVec.getLsbD_and, BitVec.getLsbD_append, BitVec.getLsbD_allOnes]
  grind

theorem cls : Statement .cls :=
  selects_of _ _ _ (by decide)

theorem ret : Statement .ret :=
  selects_of _ _ _ (by decide)

theorem sys (nnn : Addr) : Statement (.sys nnn) :=
  selects_of _ _ _ (formatA_mask 0x0 nnn)

theorem jp (nnn : Addr) : Statement (.jp nnn) :=
  selects_of _ _ _ (formatA_mask 0x1 nnn)

theorem call (nnn : Addr) : Statement (.call nnn) :=
  selects_of _ _ _ (formatA_mask 0x2 nnn)

theorem seByte (x : Reg) (kk : Byte) : Statement (.seByte x kk) :=
  selects_of _ _ _ (formatXK_mask 0x3 x kk)

theorem sneByte (x : Reg) (kk : Byte) : Statement (.sneByte x kk) :=
  selects_of _ _ _ (formatXK_mask 0x4 x kk)

theorem seReg (x : Reg) (y : Reg) (n : Nibble) : Statement (.seReg x y n) :=
  selects_of _ _ _ (formatXY_mask 0x5 x y n)

theorem ldByte (x : Reg) (kk : Byte) : Statement (.ldByte x kk) :=
  selects_of _ _ _ (formatXK_mask 0x6 x kk)

theorem addByte (x : Reg) (kk : Byte) : Statement (.addByte x kk) :=
  selects_of _ _ _ (formatXK_mask 0x7 x kk)

theorem ldReg (x : Reg) (y : Reg) : Statement (.ldReg x y) :=
  selects_of _ _ _ (formatXYS_mask 0x8 x y 0x0)

theorem orReg (x : Reg) (y : Reg) : Statement (.orReg x y) :=
  selects_of _ _ _ (formatXYS_mask 0x8 x y 0x1)

theorem andReg (x : Reg) (y : Reg) : Statement (.andReg x y) :=
  selects_of _ _ _ (formatXYS_mask 0x8 x y 0x2)

theorem xorReg (x : Reg) (y : Reg) : Statement (.xorReg x y) :=
  selects_of _ _ _ (formatXYS_mask 0x8 x y 0x3)

theorem addReg (x : Reg) (y : Reg) : Statement (.addReg x y) :=
  selects_of _ _ _ (formatXYS_mask 0x8 x y 0x4)

theorem subReg (x : Reg) (y : Reg) : Statement (.subReg x y) :=
  selects_of _ _ _ (formatXYS_mask 0x8 x y 0x5)

theorem shrReg (x : Reg) (y : Reg) : Statement (.shrReg x y) :=
  selects_of _ _ _ (formatXYS_mask 0x8 x y 0x6)

theorem subnReg (x : Reg) (y : Reg) : Statement (.subnReg x y) :=
  selects_of _ _ _ (formatXYS_mask 0x8 x y 0x7)

theorem shlReg (x : Reg) (y : Reg) : Statement (.shlReg x y) :=
  selects_of _ _ _ (formatXYS_mask 0x8 x y 0xE)

theorem sneReg (x : Reg) (y : Reg) (n : Nibble) : Statement (.sneReg x y n) :=
  selects_of _ _ _ (formatXY_mask 0x9 x y n)

theorem ldI (nnn : Addr) : Statement (.ldI nnn) :=
  selects_of _ _ _ (formatA_mask 0xA nnn)

theorem jpV0 (nnn : Addr) : Statement (.jpV0 nnn) :=
  selects_of _ _ _ (formatA_mask 0xB nnn)

theorem rnd (x : Reg) (kk : Byte) : Statement (.rnd x kk) :=
  selects_of _ _ _ (formatXK_mask 0xC x kk)

theorem drw (x : Reg) (y : Reg) (n : Nibble) : Statement (.drw x y n) :=
  selects_of _ _ _ (formatXY_mask 0xD x y n)

theorem skp (x : Reg) : Statement (.skp x) :=
  selects_of _ _ _ (formatXS_mask 0xE x 0x9E)

theorem sknp (x : Reg) : Statement (.sknp x) :=
  selects_of _ _ _ (formatXS_mask 0xE x 0xA1)

theorem ldFromDT (x : Reg) : Statement (.ldFromDT x) :=
  selects_of _ _ _ (formatXS_mask 0xF x 0x07)

theorem ldKey (x : Reg) : Statement (.ldKey x) :=
  selects_of _ _ _ (formatXS_mask 0xF x 0x0A)

theorem ldDT (x : Reg) : Statement (.ldDT x) :=
  selects_of _ _ _ (formatXS_mask 0xF x 0x15)

theorem ldST (x : Reg) : Statement (.ldST x) :=
  selects_of _ _ _ (formatXS_mask 0xF x 0x18)

theorem addI (x : Reg) : Statement (.addI x) :=
  selects_of _ _ _ (formatXS_mask 0xF x 0x1E)

theorem ldFont (x : Reg) : Statement (.ldFont x) :=
  selects_of _ _ _ (formatXS_mask 0xF x 0x29)

theorem ldBcd (x : Reg) : Statement (.ldBcd x) :=
  selects_of _ _ _ (formatXS_mask 0xF x 0x33)

theorem storeRegs (x : Reg) : Statement (.storeRegs x) :=
  selects_of _ _ _ (formatXS_mask 0xF x 0x55)

theorem loadRegs (x : Reg) : Statement (.loadRegs x) :=
  selects_of _ _ _ (formatXS_mask 0xF x 0x65)

end Sys2Proof.Laws.SelectsRow
end

