-- ==== Sys2Proof/Laws/Step.lean ====
section
/-! SUPPORT. What a step, a turn and an instruction step can do, said once. -/

namespace Sys2Proof.Machine

theorem step_of_halted {s : State} {r : HaltReason} (h : s.run = .halted r) :
    step s = .fault (.halted r) := by rw [step, h]

/-- With no turn scheduled, a core that is not halted moves. -/
theorem step_of_nil {s : State} (h : ∀ r, s.run ≠ .halted r) (hs : s.schedule = []) :
    step s = s.coreTurn := by
  rw [step]
  split
  · exact absurd (by assumption) (h _)
  · rw [hs]
  · rw [hs]

/-- With a turn scheduled, that turn moves. -/
theorem step_of_cons {s : State} {x : Turn} {xs : List Turn} (h : ∀ r, s.run ≠ .halted r)
    (hs : s.schedule = x :: xs) : step s = ({ s with schedule := xs } : State).turn x := by
  rw [step]
  split
  · exact absurd (by assumption) (h _)
  · rw [hs]
  · rw [hs]

theorem State.coreTurn_of_running {s : State} (h : s.run = .running) : s.coreTurn = s.instrStep := by
  rw [State.coreTurn, h]

theorem State.coreTurn_of_awaiting {s : State} {kx : Reg} (h : s.run = .awaitingKey kx) :
    s.coreTurn = .next s := by rw [State.coreTurn, h]

theorem State.instrStep_of_fault {s : State} {a : Word} (h : s.fetchFault = some a) :
    s.instrStep = .next (s.addressFault a) := by rw [State.instrStep, h]

theorem State.instrStep_of_decoded {s : State} {i : Instr} (h : s.fetchFault = none)
    (hd : decode s.fetchWord = .ok i) : s.instrStep = exec i s.advance := by
  rw [State.instrStep, h]
  show s.advance.execWord s.fetchWord = _
  rw [State.execWord, hd]

theorem State.instrStep_of_unknown {s : State} {e : Rejection} (h : s.fetchFault = none)
    (hd : decode s.fetchWord = .error e) :
    s.instrStep = .next (s.advance.unknownInstruction s.fetchWord) := by
  rw [State.instrStep, h]
  show s.advance.execWord s.fetchWord = _
  rw [State.execWord, hd]

/-- Everything an instruction step can do. -/
theorem State.instrStep_cases {s t : State} (h : s.instrStep = .next t) :
    (∃ a, s.fetchFault = some a ∧ t = s.addressFault a) ∨
      (s.fetchFault = none ∧ ∃ i, decode s.fetchWord = .ok i ∧ exec i s.advance = .next t) ∨
      (s.fetchFault = none ∧ t = s.advance.unknownInstruction s.fetchWord) := by
  cases hf : s.fetchFault with
  | some a =>
    rw [State.instrStep_of_fault hf] at h
    injection h with h
    exact .inl ⟨a, rfl, h.symm⟩
  | none =>
    cases hd : decode s.fetchWord with
    | ok i =>
      rw [State.instrStep_of_decoded hf hd] at h
      exact .inr (.inl ⟨rfl, i, rfl, h⟩)
    | error e =>
      rw [State.instrStep_of_unknown hf hd] at h
      injection h with h
      exact .inr (.inr ⟨rfl, h.symm⟩)

/-- Everything a core turn that answers a next state can do. -/
theorem State.coreTurn_cases {s t : State} (h : s.coreTurn = .next t) :
    (s.run = .running ∧ s.instrStep = .next t) ∨ (∃ kx, s.run = .awaitingKey kx ∧ t = s) := by
  unfold State.coreTurn at h
  split at h
  · exact .inl ⟨by assumption, h⟩
  · injection h with h
    exact .inr ⟨_, by assumption, h.symm⟩
  · simp at h

/-- Everything a step that answers a next state can do. -/
theorem step_cases {s t : State} (h : step s = .next t) :
    (∀ r, s.run ≠ .halted r) ∧
      ((s.schedule = [] ∧ s.coreTurn = .next t) ∨
        ∃ x xs, s.schedule = x :: xs ∧ ({ s with schedule := xs } : State).turn x = .next t) := by
  have hr : ∀ r, s.run ≠ .halted r := fun r hr => by rw [step_of_halted hr] at h; simp at h
  refine ⟨hr, ?_⟩
  cases hs : s.schedule with
  | nil => rw [step_of_nil hr hs] at h; exact .inl ⟨rfl, h⟩
  | cons x xs => rw [step_of_cons hr hs] at h; exact .inr ⟨x, xs, rfl, h⟩

/-- A key press does one of two things: it ends a wait, or it does nothing. -/
theorem State.keyPress_cases (s : State) (k : Key) :
    (∃ kx, s.run = .awaitingKey kx ∧
        s.keyPress k = { s.setReg kx (BitVec.ofNat 8 k.val) with run := .running }) ∨
      ((∀ kx, s.run ≠ .awaitingKey kx) ∧ s.keyPress k = s) := by
  unfold State.keyPress
  split
  · exact .inl ⟨_, by assumption, rfl⟩
  · exact .inr ⟨by simp_all, rfl⟩
  · exact .inr ⟨by simp_all, rfl⟩

/-- A timer counts down by one, to a floor of 0. -/
theorem countDown_toNat (b : Byte) : (countDown b).toNat = b.toNat - 1 := by
  unfold countDown
  split
  · subst b; rfl
  · rename_i h
    have : b.toNat ≠ 0 := fun h' => h (BitVec.eq_of_toNat_eq (by simpa using h'))
    rw [BitVec.toNat_sub]; simp; omega

/-- The induction over the turns, once: what an instruction step and each of the four other turns
keep, whatever the schedule, every step keeps. -/
theorem step_keeps (P : State → Prop)
    (hschedule : ∀ s l, P s → P { s with schedule := l })
    (hinstr : ∀ s t : State, P s → s.run = .running → s.instrStep = .next t → P t)
    (htick : ∀ s, P s → P s.tick) (hquit : ∀ s, P s → P s.quit)
    (hheld : ∀ s k, P s → P (s.holdKeys k)) (hkey : ∀ s k, P s → P (s.keyPress k))
    {s t : State} (hs : P s) (h : step s = .next t) : P t := by
  have core : ∀ s t : State, P s → s.coreTurn = .next t → P t := by
    intro s t hs h
    rcases State.coreTurn_cases h with ⟨hr, h⟩ | ⟨kx, _, rfl⟩
    · exact hinstr _ _ hs hr h
    · exact hs
  rcases step_cases h with ⟨_, ⟨_, h⟩ | ⟨x, xs, _, h⟩⟩
  · exact core _ _ hs h
  · have hs' := hschedule s xs hs
    cases x
    case core => exact core _ _ hs' h
    all_goals (injection h with h; subst h)
    · exact htick _ hs'
    · exact hkey _ _ hs'
    · exact hquit _ hs'
    · exact hheld _ _ hs'

end Sys2Proof.Machine
end

