-- ==== Sys2Proof/Tests/Slice0.lean ====
section
/-! SUPPORT. Tests of the model. Expected values come from spec/: the encodings of
spec/30_encoding.md and spec/opcode_table.json, the vectors of spec/95_test_vectors.md (named in each
test), the rules named. The last part shows that the hypotheses of the obligations can be met. -/

namespace Sys2Proof.Tests

open Sys2Proof Sys2Proof.Machine Sys2Proof.Claims

/-! ## Well-formedness: one ill-formed term for each check -/

theorem test_wellFormed_refuses_sys_cls : (Instr.sys 0x0E0).wellFormed = false := by decide

theorem test_wellFormed_refuses_sys_ret : (Instr.sys 0x0EE).wellFormed = false := by decide

theorem test_wellFormed_accepts_sys : (Instr.sys 0x0EF).wellFormed = true := by decide

/-! ## Decoding: a word of every constructor, written out from the spec's encoding -/

theorem test_decode_system :
    decode 0b0000_0000_1110_0000#16 = .ok .cls ∧ decode 0b0000_0000_1110_1110#16 = .ok .ret ∧
    decode 0b0000_0001_1110_0000#16 = .ok (.sys 0x1E0) ∧
    decode 0b0000_0000_1110_1111#16 = .ok (.sys 0x0EF) := by decide

theorem test_decode_jump_call_index :
    decode 0b0001_1010_1011_1100#16 = .ok (.jp 0xABC) ∧
    decode 0b0010_0011_0000_0000#16 = .ok (.call 0x300) ∧
    decode 0b1010_0001_0010_0011#16 = .ok (.ldI 0x123) ∧
    decode 0b1011_0010_1111_1111#16 = .ok (.jpV0 0x2FF) := by decide

theorem test_decode_skip :
    decode 0b0011_0011_0100_0010#16 = .ok (.seByte 3 0x42) ∧
    decode 0b0100_0011_0100_0010#16 = .ok (.sneByte 3 0x42) ∧
    decode 0b0101_0001_0010_0101#16 = .ok (.seReg 1 2 5) ∧
    decode 0b1001_0001_0010_1111#16 = .ok (.sneReg 1 2 0xF) := by decide

theorem test_decode_immediate_random_draw :
    decode 0b0110_1010_0000_0101#16 = .ok (.ldByte 10 5) ∧
    decode 0b0111_0001_0010_0000#16 = .ok (.addByte 1 0x20) ∧
    decode 0b1100_0011_0000_1111#16 = .ok (.rnd 3 0x0F) ∧
    decode 0b1101_0010_0011_0001#16 = .ok (.drw 2 3 1) := by decide

theorem test_decode_alu :
    decode 0b1000_0001_0010_0000#16 = .ok (.ldReg 1 2) ∧
    decode 0b1000_0001_0010_0001#16 = .ok (.orReg 1 2) ∧
    decode 0b1000_0001_0010_0010#16 = .ok (.andReg 1 2) ∧
    decode 0b1000_0001_0010_0011#16 = .ok (.xorReg 1 2) ∧
    decode 0b1000_0001_0010_0100#16 = .ok (.addReg 1 2) ∧
    decode 0b1000_0001_0010_0101#16 = .ok (.subReg 1 2) ∧
    decode 0b1000_0001_0010_0110#16 = .ok (.shrReg 1 2) ∧
    decode 0b1000_0001_0010_0111#16 = .ok (.subnReg 1 2) ∧
    decode 0b1000_0001_0010_1110#16 = .ok (.shlReg 1 2) := by decide

theorem test_decode_keypad_misc :
    decode 0b1110_0010_1001_1110#16 = .ok (.skp 2) ∧
    decode 0b1110_0010_1010_0001#16 = .ok (.sknp 2) ∧
    decode 0b1111_0011_0000_0111#16 = .ok (.ldFromDT 3) ∧
    decode 0b1111_0101_0000_1010#16 = .ok (.ldKey 5) ∧
    decode 0b1111_0011_0001_0101#16 = .ok (.ldDT 3) ∧
    decode 0b1111_0011_0001_1000#16 = .ok (.ldST 3) ∧
    decode 0b1111_0001_0001_1110#16 = .ok (.addI 1) ∧
    decode 0b1111_1010_0010_1001#16 = .ok (.ldFont 10) ∧
    decode 0b1111_0000_0011_0011#16 = .ok (.ldBcd 0) ∧
    decode 0b1111_0001_0101_0101#16 = .ok (.storeRegs 1) ∧
    decode 0b1111_0010_0110_0101#16 = .ok (.loadRegs 2) := by decide

/-- Vectors A45, E5, F27. -/
theorem test_decode_rejects_by_name :
    decode 0x8128 = .error (.unknownInstruction 0x8128) ∧
    decode 0x812F = .error (.unknownInstruction 0x812F) ∧
    decode 0xE29F = .error (.unknownInstruction 0xE29F) ∧
    decode 0xE2A0 = .error (.unknownInstruction 0xE2A0) ∧
    decode 0xF030 = .error (.unknownInstruction 0xF030) ∧
    decode 0xF0FF = .error (.unknownInstruction 0xF0FF) := by decide

/-- R50: the first byte is the high one; R62: fewer than two bytes are no instruction. -/
theorem test_decodeBytes :
    decodeBytes [0x6A, 0x05, 0x12] = .ok (.ldByte 10 5, [0x12]) ∧
    decodeBytes [0x6A] = .error (.truncated 1) ∧ decodeBytes [] = .error (.truncated 0) := by decide

/-- Words of the vectors A7, D1, F17, from the instruction's side. -/
theorem test_encode :
    encode (.addReg 10 11) = 0x8AB4 ∧ encode (.drw 2 3 2) = 0xD232 ∧
    encode (.storeRegs 15) = 0xFF55 ∧ encodeBytes (.jp 0x206) = [0x12, 0x06] := by decide

/-- The host's word and the table have 35 rows (N4). -/
theorem test_table :
    opcodeTable.length = 35 ∧ decodeTableWord 16 0x8AB4 = some (.addReg 10 11) ∧
    decodeTableWord 16 0x8008 = none := by decide

/-! ## One step of one instruction -/

/-- One step of `s` on the word `w`. -/
def run1 (w : Nat) (s : State) : Result := step (s.withFetchWord 16 w)

/-- A next state with a property. -/
def ends (r : Result) (p : State → Bool) : Bool :=
  match r with
  | .next t => p t
  | .fault _ | .refused _ => false

/-- The reset state with registers set. -/
def withRegs (rs : List (Reg × Byte)) : State := rs.foldl (fun s p => s.setReg p.1 p.2) State.reset

/-- The reset state with the index, and bytes placed from it. -/
def withIndex (i : Word) (bs : List Byte) (rs : List (Reg × Byte)) : State :=
  { withRegs rs with I := i, mem := Memory.writeList [] i.toNat bs }

/-- Z1, with one pixel. -/
theorem test_Z1_cls :
    ends (run1 0x00E0 (State.reset.setPixel (63, 31) true)) (fun t =>
      t.pixel (63, 31) == false && t.pc == 0x202 && t.display == [.setPixel (63, 31) true, .clear]) := by
  decide

/-- Z2. -/
theorem test_Z2_ret :
    ends (run1 0x00EE { State.reset with pc := 0x300, sp := 1, stack := State.reset.stack.set 0 0x206 })
      (fun t => t.pc == 0x206 && t.sp == 0) := by decide

/-- Z3. -/
theorem test_Z3_ret_underflow :
    ends (run1 0x00EE State.reset) (fun t =>
      t.pc == 0x202 && t.sp == 0 && t.trace == [.stackUnderflow]) := by decide

/-- Z7. -/
theorem test_Z7_sys :
    ends (run1 0x01E0 (State.reset.setPixel (0, 0) true)) (fun t =>
      t.pixel (0, 0) && t.pc == 0x202 && t.trace == [.sysIgnored 0x1E0]) := by decide

/-- J1. -/
theorem test_J1_jp : ends (run1 0x1ABC State.reset) (fun t => t.pc == 0xABC) := by decide

/-- J6. -/
theorem test_J6_call :
    ends (run1 0x2300 { State.reset with pc := 0x400, sp := 15 }) (fun t =>
      t.stack[15] == 0x402 && t.sp == 16 && t.pc == 0x300 && t.trace == []) := by decide

/-- J5. -/
theorem test_J5_call_overflow :
    ends (run1 0x2300 { State.reset with sp := 16, stack := Vector.replicate 16 0x111 }) (fun t =>
      t.pc == 0x202 && t.sp == 16 && t.trace == [.stackOverflow] &&
        t.stack == Vector.replicate 16 0x111) := by decide

/-- K1, K2. -/
theorem test_K1_seByte :
    ends (run1 0x3342 (withRegs [(3, 0x42)])) (fun t => t.pc == 0x204) ∧
    ends (run1 0x3343 (withRegs [(3, 0x42)])) (fun t => t.pc == 0x202) := by decide

/-- K3, K4. -/
theorem test_K3_sneByte :
    ends (run1 0x4342 (withRegs [(3, 0x42)])) (fun t => t.pc == 0x202) ∧
    ends (run1 0x4343 (withRegs [(3, 0x42)])) (fun t => t.pc == 0x204) := by decide

/-- K7, K6. -/
theorem test_K7_seReg :
    ends (run1 0x5125 (withRegs [(1, 7), (2, 7)])) (fun t => t.pc == 0x204 && t.trace == []) ∧
    ends (run1 0x5120 (withRegs [(1, 7), (2, 8)])) (fun t => t.pc == 0x202) := by decide

/-- K12, K10. -/
theorem test_K12_sneReg :
    ends (run1 0x912F (withRegs [(1, 7), (2, 8)])) (fun t => t.pc == 0x204 && t.trace == []) ∧
    ends (run1 0x9120 (withRegs [(1, 7), (2, 7)])) (fun t => t.pc == 0x202) := by decide

/-- I2. -/
theorem test_I2_ldByte :
    ends (run1 0x6FFF State.reset) (fun t => t.reg 15 == 0xFF && t.pc == 0x202) := by decide

/-- I3, I5. -/
theorem test_I3_addByte :
    ends (run1 0x7101 (withRegs [(1, 0xFF), (15, 7)])) (fun t => t.reg 1 == 0 && t.reg 15 == 7) ∧
    ends (run1 0x7F01 (withRegs [(15, 0xFF)])) (fun t => t.reg 15 == 0) := by decide

/-- A1. -/
theorem test_A1_ldReg :
    ends (run1 0x8120 (withRegs [(2, 0x3C), (15, 9)])) (fun t =>
      t.reg 1 == 0x3C && t.reg 2 == 0x3C && t.reg 15 == 9) := by decide

/-- A6, A5. -/
theorem test_A6_or :
    ends (run1 0x81F1 (withRegs [(1, 0x0C), (15, 3)])) (fun t => t.reg 1 == 0x0F && t.reg 15 == 0) ∧
    ends (run1 0x8F11 (withRegs [(15, 0x0C), (1, 0x0A)])) (fun t => t.reg 15 == 0) := by decide

/-- A5 with the quirk false. -/
theorem test_A5_or_quirk :
    ends (run1 0x8F11 { withRegs [(15, 0x0C), (1, 0x0A)] with cfg := { logicClearsVF := false } })
      (fun t => t.reg 15 == 0x0E) := by decide

/-- A3. -/
theorem test_A3_and :
    ends (run1 0x8122 (withRegs [(1, 0x0C), (2, 0x0A), (15, 1)])) (fun t =>
      t.reg 1 == 8 && t.reg 15 == 0) := by decide

/-- A4. -/
theorem test_A4_xor :
    ends (run1 0x8123 (withRegs [(1, 0x0C), (2, 0x0A), (15, 1)])) (fun t =>
      t.reg 1 == 6 && t.reg 15 == 0) := by decide

/-- A9, A10. -/
theorem test_A9_add :
    ends (run1 0x8124 (withRegs [(1, 0xFF), (2, 0xFF), (15, 9)])) (fun t =>
      t.reg 1 == 0xFE && t.reg 15 == 1) ∧
    ends (run1 0x8124 (withRegs [(1, 0x7F), (2, 0x80), (15, 9)])) (fun t =>
      t.reg 1 == 0xFF && t.reg 15 == 0) := by decide

/-- A14, with both settings of the quirk. -/
theorem test_A14_add_flag_destination :
    ends (run1 0x8F14 (withRegs [(15, 0xFF), (1, 1)])) (fun t => t.reg 15 == 1) ∧
    ends (run1 0x8F14 { withRegs [(15, 0xFF), (1, 1)] with cfg := { vfDestSuppress := false } })
      (fun t => t.reg 15 == 1) := by decide

/-- A18, A19. -/
theorem test_A18_sub :
    ends (run1 0x8125 (withRegs [(1, 3), (2, 5), (15, 9)])) (fun t =>
      t.reg 1 == 0xFE && t.reg 15 == 0) ∧
    ends (run1 0x8125 (withRegs [(1, 5), (2, 5), (15, 9)])) (fun t =>
      t.reg 1 == 0 && t.reg 15 == 1) := by decide

/-- A26, A27. -/
theorem test_A26_subn :
    ends (run1 0x8127 (withRegs [(1, 3), (2, 5), (15, 9)])) (fun t =>
      t.reg 1 == 2 && t.reg 15 == 1) ∧
    ends (run1 0x8127 (withRegs [(1, 5), (2, 3), (15, 9)])) (fun t =>
      t.reg 1 == 0xFE && t.reg 15 == 0) := by decide

/-- A29, A33. -/
theorem test_A29_shr :
    ends (run1 0x8126 (withRegs [(1, 0xEE), (2, 5), (15, 9)])) (fun t =>
      t.reg 1 == 2 && t.reg 2 == 5 && t.reg 15 == 1) ∧
    ends (run1 0x8126 (withRegs [(1, 0xEE), (2, 0x80), (15, 9)])) (fun t =>
      t.reg 1 == 0x40 && t.reg 15 == 0) := by decide

/-- A38, A41. -/
theorem test_A38_shl :
    ends (run1 0x812E (withRegs [(1, 0xEE), (2, 0x81), (15, 9)])) (fun t =>
      t.reg 1 == 2 && t.reg 2 == 0x81 && t.reg 15 == 1) ∧
    ends (run1 0x812E (withRegs [(1, 0xEE), (2, 0x40), (15, 9)])) (fun t =>
      t.reg 1 == 0x80 && t.reg 15 == 0) := by decide

/-- X2. -/
theorem test_X2_ldI : ends (run1 0xAFFF State.reset) (fun t => t.I == 0xFFF) := by decide

/-- X5, X4. -/
theorem test_X5_jpV0 :
    ends (run1 0xBFFF (withRegs [(0, 0xFF)])) (fun t => t.pc == 0x10FE) ∧
    ends (run1 0xB2FF (withRegs [(0, 2)])) (fun t => t.pc == 0x301) := by decide

/-- R2: for every draw. -/
theorem test_R2_rnd :
    ends (run1 0xC300 (withRegs [(3, 0x55), (15, 9)])) (fun t =>
      t.reg 15 == 9 && t.pc == 0x202 && t.draws == 1) := by decide

/-- D1. -/
theorem test_D1_drw :
    ends (run1 0xD232 (withIndex 0x300 [0xF0, 0x90] [(2, 62), (3, 94)])) (fun t =>
      t.pixel (62, 30) && t.pixel (63, 30) && t.pixel (62, 31) && !t.pixel (63, 31) &&
        !t.pixel (0, 30) && t.reg 15 == 0 && t.I == 0x300) := by decide

/-- D8: out of reach, nothing happens but the fault. -/
theorem test_D8_drw_out_of_range :
    ends (run1 0xD012 (withIndex 0xFFF [0x80] [(15, 7)])) (fun t =>
      t.trace == [.addressFault 0x1000] && t.run == .halted .addressFault && t.pc == 0x202 &&
        !t.pixel (0, 0) && t.reg 15 == 7) := by decide

/-- E1, E3. -/
theorem test_E1_skp :
    ends (run1 0xE29E { withRegs [(2, 5)] with keys := State.reset.keys.set 5 true })
      (fun t => t.pc == 0x204) ∧
    ends (run1 0xE29E { withRegs [(2, 5)] with keys := State.reset.keys.set 4 true })
      (fun t => t.pc == 0x202) := by decide

/-- E2, E4. -/
theorem test_E2_sknp :
    ends (run1 0xE2A1 { withRegs [(2, 5)] with keys := State.reset.keys.set 5 true })
      (fun t => t.pc == 0x202) ∧
    ends (run1 0xE2A1 (withRegs [(2, 5)])) (fun t => t.pc == 0x204) := by decide

/-- F1. -/
theorem test_F1_ldFromDT :
    ends (run1 0xF307 { State.reset with DT := 5 }) (fun t => t.reg 3 == 5 && t.DT == 5) := by decide

/-- F25. -/
theorem test_F25_ldKey :
    ends (run1 0xF50A { State.reset with pc := 0x230 }) (fun t =>
      t.run == .awaitingKey 5 && t.pc == 0x232) := by decide

/-- F25, the key press. -/
theorem test_F25_key_press :
    ends (step { State.reset with run := .awaitingKey 5, schedule := [.keyPress 7] }) (fun t =>
      t.reg 5 == 7 && t.run == .running && t.pc == 0x200) := by decide

/-- F2. -/
theorem test_F2_ldDT :
    ends (run1 0xF315 (withRegs [(3, 0x3C)])) (fun t => t.DT == 0x3C && t.ST == 0) := by decide

/-- F3, F4. -/
theorem test_F3_ldST :
    ends (run1 0xF318 (withRegs [(3, 2)])) (fun t => t.ST == 2 && t.soundActive && t.DT == 0) ∧
    ends (run1 0xF318 { State.reset with ST := 9 }) (fun t => t.ST == 0 && !t.soundActive) := by
  decide

/-- F6, F7. -/
theorem test_F6_addI :
    ends (run1 0xF11E (withIndex 0xFFF [] [(1, 1), (15, 7)])) (fun t =>
      t.I == 0x1000 && t.reg 15 == 7) ∧
    ends (run1 0xF11E { withRegs [(1, 1), (15, 7)] with I := 0xFFFF }) (fun t =>
      t.I == 0 && t.reg 15 == 7) := by decide

/-- F9, F10. -/
theorem test_F9_ldFont :
    ends (run1 0xF029 (withRegs [(0, 0x1A)])) (fun t => t.I == 0x32) ∧
    ends (run1 0xF029 (withRegs [(0, 0xFF)])) (fun t => t.I == 0x4B) := by decide

/-- F11. -/
theorem test_F11_ldBcd :
    ends (run1 0xF033 (withIndex 0x300 [] [(0, 234)])) (fun t =>
      t.mem.read 0x300 == 2 && t.mem.read 0x301 == 3 && t.mem.read 0x302 == 4 && t.I == 0x300) := by
  decide

/-- F14. -/
theorem test_F14_ldBcd_out_of_range :
    ends (run1 0xF033 (withIndex 0xFFE [] [(0, 123)])) (fun t =>
      t.trace == [.addressFault 0x1000] && t.run == .halted .addressFault && t.pc == 0x202 &&
        t.mem.read 0xFFE == 0 && t.mem.read 0xFFF == 0) := by decide

/-- F15. -/
theorem test_F15_storeRegs :
    ends (run1 0xF155 (withIndex 0x300 [] [(0, 0xF0), (1, 0x90), (2, 7)])) (fun t =>
      t.mem.read 0x300 == 0xF0 && t.mem.read 0x301 == 0x90 && t.mem.read 0x302 == 0 &&
        t.I == 0x302) := by decide

/-- F19. -/
theorem test_F19_storeRegs_last_byte :
    ends (run1 0xF055 (withIndex 0xFFF [] [(0, 0x77)])) (fun t =>
      t.mem.read 0xFFF == 0x77 && t.I == 0x1000 && t.run == .running) := by decide

/-- F20, F21. -/
theorem test_F20_loadRegs :
    ends (run1 0xF265 (withIndex 0x300 [2, 3, 4, 5] [])) (fun t =>
      t.reg 0 == 2 && t.reg 1 == 3 && t.reg 2 == 4 && t.reg 3 == 0 && t.I == 0x303) ∧
    ends (run1 0xF065 (withIndex 0x300 [9, 8] [])) (fun t =>
      t.reg 0 == 9 && t.reg 1 == 0 && t.I == 0x301) := by decide

/-- F24: the glyph of 0 in unwritten memory. -/
theorem test_F24_loadRegs_font :
    ends (run1 0xF465 State.reset) (fun t =>
      t.reg 0 == 0xF0 && t.reg 1 == 0x90 && t.reg 4 == 0xF0 && t.I == 5) := by decide

/-- A45. -/
theorem test_A45_unknown :
    ends (run1 0x8128 (withRegs [(1, 1), (2, 2)])) (fun t =>
      t.trace == [.unknownInstruction 0x8128] && t.reg 1 == 1 && t.pc == 0x202 &&
        t.run == .running) := by decide

/-- X5, J3: a fetch out of range. -/
theorem test_fetch_out_of_range :
    ends (step { State.reset with pc := 0x10FE }) (fun t =>
      t.trace == [.addressFault 0x10FE] && t.run == .halted .addressFault && t.pc == 0x10FE) ∧
    ends (step { State.reset with pc := 0xFFF }) (fun t =>
      t.trace == [.addressFault 0x1000] && t.pc == 0xFFF) := by decide

/-- T1, one tick. -/
theorem test_T1_tick :
    ends (step { State.reset with DT := 5, ST := 1, schedule := [.tick] }) (fun t =>
      t.DT == 4 && t.ST == 0 && t.display == [.present] && t.pc == 0x200) := by decide

/-- T5, T3. -/
theorem test_T5_quit :
    ends (step { State.reset with schedule := [.quit] }) (fun t =>
      t.run == .halted .quit && t.pc == 0x200) ∧
    (match step { State.reset with run := .halted .quit, DT := 5, schedule := [.tick] } with
      | .fault f => f == .halted .quit
      | .next _ | .refused _ => false) = true := by decide

/-- S7: the two-byte image, one step from its load. -/
theorem test_S7_load :
    (match State.reset.load (Vector.replicate 80 0) [0x00, 0xE0] with
      | .ok s => ends (step s) (fun t => t.pc == 0x202 && t.trace == [] && t.display == [.clear])
      | .error _ => false) = true := by
  set_option maxRecDepth 4000 in decide

/-! ## The hypotheses of the obligations can be met -/

/-- The state of an outcome that has one. -/
def nextOf (r : Result) : State :=
  match r with
  | .next t => t
  | .fault _ | .refused _ => State.reset

/-- A state with the word `w` where it is fetched. -/
def fetching (w : Nat) : State := State.reset.withFetchWord 16 w

theorem test_witness_DecodeOfEncodeIsTheInstruction :
    (Instr.sys 0xFFF).wellFormed = true ∧ Instr.cls.wellFormed = true := by decide

theorem test_witness_EncodeOfDecodeIsTheWord : decode 0x512F = .ok (.seReg 1 2 0xF) := by decide

/-- A word with one row, a word with two, a word with none. -/
theorem test_witness_DecodeFollowsTheOpcodeTable :
    decode 0x8AB4 = .ok (.addReg 10 11) ∧
    (decode 0x00EE = .ok .ret ∧ (Instr.sys 0).row.selects 0x00EE = true) ∧
    decode 0xF066 = .error (.unknownInstruction 0xF066) := by decide

/-- A word of each of the three families, and a known one beside it. -/
theorem test_witness_UnknownWordsAreExactlyThese :
    decode 0x800F = .error (.unknownInstruction 0x800F) ∧ decode 0x800E = .ok (.shlReg 0 0) ∧
    decode 0xE09F = .error (.unknownInstruction 0xE09F) ∧ decode 0xE09E = .ok (.skp 0) ∧
    decode 0xF006 = .error (.unknownInstruction 0xF006) ∧ decode 0xF007 = .ok (.ldFromDT 0) := by
  decide

/-- No turn scheduled, `pc` at the last address a fetch reaches. -/
theorem test_witness_StepRunsTheDecodedInstruction :
    let s := ({ State.reset with pc := 0xFFE } : State).withFetchWord 16 0x00E0
    coreMoves s [] ∧ s.run = .running ∧ s.pc.toNat = 0x0FFE ∧ decode s.fetchWord = .ok .cls := by
  unfold coreMoves; decide

/-- The core's turn scheduled, and a `pc` past the end of memory under policy wrap12. -/
theorem test_witness_StepRunsTheDecodedInstruction_wrap :
    let s := ({ State.reset with pc := 0xFFF, schedule := [.core, .tick], cfg := { addrPolicy := .wrap12 } } : State).withFetchWord 16 0x00E0
    coreMoves s [.tick] ∧ s.run = .running ∧ s.cfg.addrPolicy ≠ .fault ∧ s.pc = 0xFFF ∧
      decode s.fetchWord = .ok .cls := by
  unfold coreMoves; decide

theorem test_witness_FetchIsBigEndian : ({ State.reset with pc := 0xFFE } : State).pc.toNat = 0x0FFE := by
  decide

theorem test_witness_UnknownWordIsAReportedNoOp :
    coreMoves (fetching 0x8008) [] ∧ (fetching 0x8008).run = .running ∧
    (fetching 0x8008).pc.toNat ≤ 0x0FFE ∧ (fetching 0x8008).fetchWord = 0x8008 ∧
    decode 0x8008 = .error (.unknownInstruction 0x8008) := by
  unfold coreMoves; decide

/-- Both clauses of the missing address. -/
theorem test_witness_FetchOutOfRangeHalts :
    coreMoves State.reset [] ∧ State.reset.run = .running ∧ State.reset.cfg.addrPolicy = .fault ∧
    0x0FFE < (0x0FFF#16).toNat ∧ ¬ 0x1000 ≤ (0x0FFF#16).toNat ∧ 0x1000 ≤ (0x1000#16).toNat := by
  unfold coreMoves; decide

/-- The largest word, where the fetch is kept and where `pc` cannot be fetched from. -/
theorem test_witness_PlacedWordIsRunNext :
    65535 < 65536 ∧ State.reset.fetchFault = none ∧
    ({ State.reset with pc := 0xFFF } : State).fetchFault = some 0x1000 := by decide

/-- The first, the last entry and none. -/
theorem test_witness_RetPopsOrReportsUnderflow :
    ({ State.reset with sp := 1 } : State).sp.val = (0 : Fin 16).val + 1 ∧
    ({ State.reset with sp := 16 } : State).sp.val = (15 : Fin 16).val + 1 ∧
    State.reset.sp.val = 0 := by decide

/-- The first, the last free entry and none. -/
theorem test_witness_CallPushesOrReportsOverflow :
    State.reset.sp.val = (0 : Fin 16).val ∧
    ({ State.reset with sp := 15 } : State).sp.val = (15 : Fin 16).val ∧
    ({ State.reset with sp := 16 } : State).sp.val = 16 := by decide

theorem test_witness_NestedCallsReturnInOrder :
    State.reset.sp.val + (List.replicate 16 (0x300 : Addr)).length ≤ 16 := by decide

theorem test_witness_KeySkipsReadTheHeldKey :
    ((withRegs [(2, 15)]).reg 2).toNat = (15 : Key).val := by decide

theorem test_witness_KeySkipsOutOfRangeComplement : 16 ≤ ((withRegs [(2, 16)]).reg 2).toNat := by
  decide

/-- The three forms, both settings, a destination that is the flag register and one that is not. -/
theorem test_witness_LogicOpsClearTheFlagByQuirk :
    (Instr.orReg 1 2 = .orReg 1 2 ∧ Bool.or = Bool.or) ∧
    (Instr.andReg 1 2 = .andReg 1 2 ∧ Bool.and = Bool.and) ∧
    (Instr.xorReg 15 2 = .xorReg 15 2 ∧ Bool.xor = Bool.xor) ∧
    State.reset.cfg.logicClearsVF = true ∧ (1 : Reg) ≠ 15 ∧
    ({ State.reset with cfg := { logicClearsVF := false } } : State).cfg.logicClearsVF = false :=
  ⟨⟨rfl, rfl⟩, ⟨rfl, rfl⟩, ⟨rfl, rfl⟩, rfl, by decide, rfl⟩

/-- A result register that is not the flag register: AddReg, the shifts, the subtractions. -/
theorem test_witness_results_kept : (0 : Reg) ≠ 15 ∧ (14 : Reg) ≠ 15 := by decide

/-- Both forms. -/
theorem test_witness_SubtractionsSetNoBorrow :
    let s := withRegs [(1, 3), (2, 5)]
    (Instr.subReg 1 2 = .subReg 1 2 ∧ (3 : Byte) = s.reg 1 ∧ (5 : Byte) = s.reg 2) ∧
    (Instr.subnReg 1 2 = .subnReg 1 2 ∧ (5 : Byte) = s.reg 2 ∧ (3 : Byte) = s.reg 1) := by decide

theorem test_witness_SuppressQuirkIsUnobservable :
    exec (.addReg 15 1) State.reset = .next (nextOf (exec (.addReg 15 1) State.reset)) := rfl

/-- The last row in reach under policy fault; any index under wrap12; a collision and none. -/
theorem test_witness_DrwXorsTheSprite :
    inReach (withIndex 0xFFF [0x80] []) (1 : Nibble).toNat ∧
    inReach { withIndex 0xFFF [0x80] [] with cfg := { addrPolicy := .wrap12 } } (15 : Nibble).toNat ∧
    spriteCovers (withIndex 0xFFF [0x80] []) 0 0 1 (0, 0) = true ∧
    (State.reset.setPixel (0, 0) true).pixel (0, 0) = true ∧
    spriteCovers (withIndex 0xFFF [0x80] []) 0 0 1 (1, 0) = false := by
  refine ⟨fun _ => by decide, fun h => ?_, by decide, by decide, by decide⟩
  cases h

/-- The rows in reach end at the last byte. -/
theorem test_witness_DrwIssuesOneGetAndOneSetPerBit :
    inReach (withIndex 0xFF1 [] []) (15 : Nibble).toNat := fun _ => by decide

/-- The state after drawing the sprite of D1 at the coordinates of D1, and the same draw again. -/
theorem test_witness_DoubleDrawRestoresThePixels :
    let s := withIndex 0x300 [0xF0, 0x90] [(2, 62), (3, 94)]
    let t := nextOf (exec (.drw 2 3 2) s)
    exec (.drw 2 3 2) s = .next t ∧ t.run = .running ∧ t.pix = t.pix ∧ t.cfg = s.cfg ∧ t.I = s.I ∧
      (t.reg 2).toNat % 64 = (s.reg 2).toNat % 64 ∧ (t.reg 3).toNat % 32 = (s.reg 3).toNat % 32 ∧
      ∀ k < (2 : Nibble).toNat, t.readByte (s.I + BitVec.ofNat 16 k) = s.readByte (s.I + BitVec.ofNat 16 k) := by
  refine ⟨rfl, rfl, rfl, rfl, rfl, by decide, by decide, fun k _ => rfl⟩

theorem test_witness_KeyWaitEndsWithThePressedSymbol :
    let s : State := { State.reset with run := .awaitingKey 5, schedule := [.tick, .tick, .keyPress 15, .quit] }
    s.run = .awaitingKey 5 ∧ s.schedule = List.replicate 2 .tick ++ .keyPress 15 :: [.quit] := ⟨rfl, rfl⟩

/-- With and without a scheduled turn. -/
theorem test_witness_NoInstructionRunsDuringAKeyWait :
    ({ State.reset with run := .awaitingKey 15 } : State).run = .awaitingKey 15 ∧
    coreMoves { State.reset with run := .awaitingKey 15 } [] ∧
    coreMoves { State.reset with run := .awaitingKey 15, schedule := [.core, .tick] } [.tick] :=
  ⟨rfl, .inr ⟨rfl, rfl⟩, .inl rfl⟩

/-- The last index in reach. -/
theorem test_witness_LdBcdStoresThreeDigits : inReach (withIndex 0xFFD [] []) 3 := fun _ => by decide

/-- The last index in reach of one and of sixteen registers: storing and loading. -/
theorem test_witness_StoreRegs_LoadRegs :
    inReach (withIndex 0xFFF [] []) ((0 : Reg).val + 1) ∧
    inReach (withIndex 0xFF0 [] []) ((15 : Reg).val + 1) := ⟨fun _ => by decide, fun _ => by decide⟩

/-- The registers a load writes and one it does not. -/
theorem test_witness_LoadRegs_bounds : (3 : Reg) ≤ 3 ∧ (3 : Reg) < 4 := by decide

theorem test_witness_LoadAfterStoreRestoresTheRegisters :
    let s := withIndex 0xFFE [] [(0, 0xF0), (1, 0x90)]
    let t := nextOf (exec (.storeRegs 1) s)
    let u : State := { State.reset with mem := t.mem, I := 0xFFE }
    inReach s ((1 : Reg).val + 1) ∧ exec (.storeRegs 1) s = .next t ∧ u.mem = t.mem ∧ u.cfg = t.cfg ∧
      u.I = s.I := ⟨fun _ => by decide, rfl, rfl, rfl, rfl⟩

/-- Each clause at the first index that is out of reach. -/
theorem test_witness_AccessOutOfRangeHaltsBeforeAnyEffect :
    State.reset.cfg.addrPolicy = .fault ∧
    ((1 : Nibble) ≠ 0 ∧ 0x1000 < (withIndex 0x1000 [] []).I.toNat + (1 : Nibble).toNat) ∧
    0x1000 < (withIndex 0xFFE [] []).I.toNat + 3 ∧
    0x1000 < (withIndex 0xFFF [] []).I.toNat + (1 : Reg).val + 1 := by decide

theorem test_witness_StoreIsSeenByTheNextFetch :
    let s : State := { withIndex 0x202 [] [(0, 0x12)] with pc := 0x202 }
    1 ≤ (1 : Reg).val ∧ inReach s ((1 : Reg).val + 1) ∧ s.pc = s.I ∧
      exec (.storeRegs 1) s = .next (nextOf (exec (.storeRegs 1) s)) :=
  ⟨by decide, fun _ => by decide, rfl, rfl⟩

/-- A running and a waiting core, a tick and a quit scheduled. -/
theorem test_witness_Tick_Quit :
    (∀ r, State.reset.run ≠ .halted r) ∧
    (∀ r, ({ State.reset with run := .awaitingKey 0 } : State).run ≠ .halted r) ∧
    ({ State.reset with schedule := [.tick] } : State).schedule = .tick :: [] ∧
    ({ State.reset with schedule := [.quit] } : State).schedule = .quit :: [] := by
  exact ⟨fun r h => (by cases h), fun r h => (by cases h), rfl, rfl⟩

/-- A press while running, a change of the held keys while running and while a key is awaited. -/
theorem test_witness_UndeliveredInputsChangeNothing :
    (State.reset.run = .running ∧
      ({ State.reset with schedule := [.keyPress 15] } : State).schedule = .keyPress 15 :: []) ∧
    (∀ r, State.reset.run ≠ .halted r) ∧
    (∀ r, ({ State.reset with run := .awaitingKey 15 } : State).run ≠ .halted r) ∧
    ({ State.reset with schedule := [.heldKeys State.reset.keys] } : State).schedule =
      .heldKeys State.reset.keys :: [] :=
  ⟨⟨rfl, rfl⟩, fun r h => (by cases h), fun r h => (by cases h), rfl⟩

/-- A halted state and one that is not. -/
theorem test_witness_StuckExactlyWhenHalted :
    ({ State.reset with run := .halted .quit } : State).run = .halted .quit ∧
    ∀ r, State.reset.run ≠ .halted r := ⟨rfl, fun r h => (by cases h)⟩

/-- A next state of every form with a clause of its own, and a cell, an entry and a point outside. -/
theorem test_witness_EveryInstructionKeepsItsFrame :
    let s := withIndex 0xFFD [] []
    (exec (.ldBcd 0) s = .next (nextOf (exec (.ldBcd 0) s)) ∧ 0xFFC ∉ cellsFromI s 3) ∧
    (exec (.storeRegs 2) s = .next (nextOf (exec (.storeRegs 2) s)) ∧ 0 ∉ cellsFromI s 3) ∧
    exec .ret s = .next (nextOf (exec .ret s)) ∧
    (exec (.call 0x300) s = .next (nextOf (exec (.call 0x300) s)) ∧ (15 : Fin 16).val ≠ s.sp.val) ∧
    (exec (.drw 0 0 1) s = .next (nextOf (exec (.drw 0 0 1) s)) ∧ spriteCovers s 0 0 1 (8, 0) = false) :=
  ⟨⟨rfl, by decide⟩, ⟨rfl, by decide⟩, rfl, ⟨rfl, by decide⟩, rfl, by decide⟩

theorem test_witness_StreamsAreAppendOnly :
    step (fetching 0x8008) = .next (nextOf (step (fetching 0x8008))) := rfl

/-- A store past the end of memory, which completes, and the last register it stores. -/
theorem test_witness_WrapPolicyNeverFaults :
    let s : State := { fetching 0xFF55 with I := 0xFFFF, cfg := { addrPolicy := .wrap12 } }
    coreMoves s [] ∧ s.cfg.addrPolicy = .wrap12 ∧ step s = .next (nextOf (step s)) ∧ (15 : Reg) ≤ 15 :=
  ⟨.inr ⟨rfl, rfl⟩, rfl, rfl, by decide⟩

/-- The three invariants at one state that steps: memory with a byte listed, a CALL to run. -/
theorem test_witness_invariants :
    (fetching 0x2300).memCanonical ∧ (fetching 0x2300).faultIsHalt ∧ (fetching 0x2300).pcBounded ∧
    step (fetching 0x2300) = .next (nextOf (step (fetching 0x2300))) := by
  refine ⟨?_, ?_, ?_, rfl⟩
  · unfold State.memCanonical; decide
  · constructor
    · rintro ⟨a, h⟩; cases h
    · intro h; cases h
  · intro _; decide

theorem test_witness_ResetAndLoadMeetTheInvariants :
    State.reset.memCanonical ∧ State.reset.pcBounded ∧
    ∃ s, State.reset.load (Vector.replicate 80 0) [0x00, 0xE0] = .ok s := by
  refine ⟨?_, fun _ => by decide, _, rfl⟩
  unfold State.memCanonical; decide

/-- No image, the shortest, the longest, one too long. -/
theorem test_witness_LoadPlacesFontAndImage :
    ([] : List Byte).length = 0 ∧ 1 ≤ [(0 : Byte)].length ∧
    (List.replicate 3584 (0 : Byte)).length ≤ 3584 ∧ 3584 < (List.replicate 3585 (0 : Byte)).length := by
  refine ⟨rfl, by decide, ?_, ?_⟩ <;> rw [List.length_replicate]
  decide

end Sys2Proof.Tests
end

section

namespace Sys2Proof.Machine

/-- The fetched word as a number, at every `pc`: the cells of `pc` and `pc + 1`, high byte first. -/
theorem State.fetchWord_toNat (s : State) :
    s.fetchWord.toNat = (s.mem.read (s.pc.toNat % memSize)).toNat * 256 +
      (s.mem.read ((s.pc.toNat + 1) % memSize)).toNat := by
  have hlow : cellOf (s.pc + 1) = (s.pc.toNat + 1) % memSize := cellOf_add s.pc 1
  rw [State.fetchWord, wordOfBytes_toNat, State.readByte, State.readByte, hlow, cellOf]

end Sys2Proof.Machine

open Sys2Proof.Machine Sys2Proof.Claims

/-- Settles O7: both addresses of the fetch lie below `0x1000`, so each is its own cell. -/
theorem fetchIsBigEndian : Obligations.FetchIsBigEndian := by
  intro s hpc
  have hhigh : s.pc.toNat % memSize = s.pc.toNat := Nat.mod_eq_of_lt (by unfold memSize; omega)
  have hlow : (s.pc.toNat + 1) % memSize = s.pc.toNat + 1 :=
    Nat.mod_eq_of_lt (by unfold memSize; omega)
  rw [State.fetchWord_toNat, hhigh, hlow, bigEndianAt]

end

section

namespace Sys2Proof.Machine

@[simp] theorem State.clearPixels_pixel (s : State) (p : Point) : s.clearPixels.pixel p = false := by
  simp [State.pixel]

@[simp] theorem State.clearPixels_reg (s : State) (r : Reg) : s.clearPixels.reg r = s.reg r :=
  State.reg_congr s.clearPixels_V r

/-- Clearing the screen writes the pixels and the display stream, nothing else. -/
theorem State.clearPixels_frame (s : State) : Frame [] [.pixels, .display] s s.clearPixels where
  regs r _ := s.clearPixels_reg r
  index _ := s.clearPixels_I
  pc _ := s.clearPixels_pc
  stack _ := ⟨s.clearPixels_sp, s.clearPixels_stack⟩
  delayTimer _ := s.clearPixels_DT
  soundTimer _ := s.clearPixels_ST
  memory _ a := congrArg (·.read a) s.clearPixels_mem
  pixels h := absurd (by decide) h
  run _ := s.clearPixels_run
  trace _ := s.clearPixels_trace
  display h := absurd (by decide) h
  draws _ := s.clearPixels_draws
  keys := s.clearPixels_keys
  schedule := s.clearPixels_schedule
  cfg := s.clearPixels_cfg

/-- `CLS` always completes, in the cleared state (40_family0_system.md R100). -/
theorem exec_cls (s : State) : exec .cls s = .next s.clearPixels := rfl

end Sys2Proof.Machine

open Sys2Proof Sys2Proof.Machine Sys2Proof.Claims

/-- Settles O11: the next state is `s.clearPixels`, whose pixels, display stream and frame are the
rules of that operation. -/
theorem clsClearsEveryPixel : Obligations.ClsClearsEveryPixel := by
  have hdecode : decode 0x00E0#16 = .ok .cls := by decide
  refine ⟨hdecode, fun s => ⟨s.clearPixels, exec_cls s, ?_, ?_, ?_⟩⟩
  · exact s.clearPixels_pixel
  · exact s.clearPixels_display
  · exact s.clearPixels_frame

end

section

namespace Sys2Proof

/-- Family 1 is `JP` alone (30_encoding.md R66). -/
theorem decode_of_op_1 {w : Word} (h : fieldOp w = 0x1) : decode w = .ok (.jp (fieldNNN w)) := by
  rw [decode, h]
  rfl

/-- Family 2 is `CALL` alone (30_encoding.md R66). -/
theorem decode_of_op_2 {w : Word} (h : fieldOp w = 0x2) : decode w = .ok (.call (fieldNNN w)) := by
  rw [decode, h]
  rfl

theorem decode_formatA_jp (nnn : Addr) : decode (formatA 0x1 nnn) = .ok (.jp nnn) := by
  rw [decode_of_op_1 (fieldOp_formatA 0x1 nnn), fieldNNN_formatA]

theorem decode_formatA_call (nnn : Addr) : decode (formatA 0x2 nnn) = .ok (.call nnn) := by
  rw [decode_of_op_2 (fieldOp_formatA 0x2 nnn), fieldNNN_formatA]

end Sys2Proof

namespace Sys2Proof.Machine

theorem zextAddr_toNat (a : Addr) : (zextAddr a).toNat = a.toNat :=
  BitVec.toNat_setWidth_of_le (by decide)

/-! ## Jumps -/

/-- A jump writes `pc`, nothing else. -/
theorem State.jumpTo_frame (s : State) (w : Word) : Frame [] [.pc] s (s.jumpTo w) where
  regs r _ := State.reg_congr (s.jumpTo_V w) r
  index _ := s.jumpTo_I w
  pc h := absurd (by decide) h
  stack _ := ⟨s.jumpTo_sp w, s.jumpTo_stack w⟩
  delayTimer _ := s.jumpTo_DT w
  soundTimer _ := s.jumpTo_ST w
  memory _ a := congrArg (·.read a) (s.jumpTo_mem w)
  pixels _ p := State.pixel_congr (s.jumpTo_pix w) p
  run _ := s.jumpTo_run w
  trace _ := s.jumpTo_trace w
  display _ := s.jumpTo_display w
  draws _ := s.jumpTo_draws w
  keys := s.jumpTo_keys w
  schedule := s.jumpTo_schedule w
  cfg := s.jumpTo_cfg w

/-- `JP` always completes, in the jumped state (41_jump_call.md R110). -/
theorem exec_jp (nnn : Addr) (s : State) : exec (.jp nnn) s = .next (s.jumpTo (zextAddr nnn)) := rfl

/-! ## Reports -/

/-- A report lengthens the observer's stream and changes nothing else. -/
theorem State.report_frame (s : State) (r : Report) : Frame [] [.trace] s (s.report r) where
  regs q _ := State.reg_congr (s.report_V r) q
  index _ := s.report_I r
  pc _ := s.report_pc r
  stack _ := ⟨s.report_sp r, s.report_stack r⟩
  delayTimer _ := s.report_DT r
  soundTimer _ := s.report_ST r
  memory _ a := congrArg (·.read a) (s.report_mem r)
  pixels _ p := State.pixel_congr (s.report_pix r) p
  run _ := s.report_run r
  trace h := absurd (by decide) h
  display _ := s.report_display r
  draws _ := s.report_draws r
  keys := s.report_keys r
  schedule := s.report_schedule r
  cfg := s.report_cfg r

/-! ## Calls -/

/-- A call with an entry free. -/
theorem State.callTo_of_room {s : State} (h : s.sp.val < 16) (w : Word) :
    s.callTo w =
      { s with stack := s.stack.set s.sp.val s.pc h, sp := ⟨s.sp.val + 1, by omega⟩, pc := w } := by
  obtain ⟨_, hcall⟩ | ⟨hfull, _⟩ := s.callTo_cases w
  · exact hcall
  · omega

/-- A call with all sixteen entries live. -/
theorem State.callTo_of_full {s : State} (h : s.sp.val = 16) (w : Word) :
    s.callTo w = s.report .stackOverflow := by
  obtain ⟨hroom, _⟩ | ⟨_, hcall⟩ := s.callTo_cases w
  · omega
  · exact hcall

theorem State.callTo_pc {s : State} (h : s.sp.val < 16) (w : Word) : (s.callTo w).pc = w := by
  rw [State.callTo_of_room h]

theorem State.callTo_sp {s : State} (h : s.sp.val < 16) (w : Word) :
    (s.callTo w).sp.val = s.sp.val + 1 := by
  rw [State.callTo_of_room h]

/-- The stack after a call: the old `pc` at the entry `sp` named, the old entry elsewhere. -/
theorem State.callTo_stack_getElem {s : State} (h : s.sp.val < 16) (w : Word) (j : Fin 16) :
    (s.callTo w).stack[j] = if s.sp.val = j.val then s.pc else s.stack[j] := by
  rw [State.callTo_of_room h]
  exact Vector.getElem_set h j.isLt

/-- A call with an entry free writes `pc` and the stack, nothing else. -/
theorem State.callTo_frame {s : State} (h : s.sp.val < 16) (w : Word) :
    Frame [] [.pc, .stack] s (s.callTo w) := by
  rw [State.callTo_of_room h]
  exact {
    regs := fun _ _ => rfl
    index := fun _ => rfl
    pc := fun hpc => absurd (by decide) hpc
    stack := fun hstack => absurd (by decide) hstack
    delayTimer := fun _ => rfl
    soundTimer := fun _ => rfl
    memory := fun _ _ => rfl
    pixels := fun _ _ => rfl
    run := fun _ => rfl
    trace := fun _ => rfl
    display := fun _ => rfl
    draws := fun _ => rfl
    keys := rfl
    schedule := rfl
    cfg := rfl }

/-- `CALL` always completes, whether the stack has room or not (41_jump_call.md R111). -/
theorem exec_call (nnn : Addr) (s : State) :
    exec (.call nnn) s = .next (s.callTo (zextAddr nnn)) := rfl

end Sys2Proof.Machine

open Sys2Proof Sys2Proof.Machine Sys2Proof.Claims

/-- Settles O14: the next state is `s` jumped to the zero-extended address, which is the same
number. -/
theorem jpSetsPc : Obligations.JpSetsPc := by
  intro nnn s
  have hpc : (s.jumpTo (zextAddr nnn)).pc.toNat = nnn.toNat := by
    rw [State.jumpTo_pc, zextAddr_toNat]
  exact ⟨decode_formatA_jp nnn, s.jumpTo (zextAddr nnn), exec_jp nnn s, hpc, s.jumpTo_frame _⟩

/-- Settles O15: the next state is `s.callTo` of the zero-extended address, split by whether an entry
is free: a push at entry `sp` and a jump, or the report alone. -/
theorem callPushesOrReportsOverflow : Obligations.CallPushesOrReportsOverflow := by
  intro nnn s
  refine ⟨decode_formatA_call nnn, fun k hk => ?room, fun hfull => ?full⟩
  case room =>
    have hroom : s.sp.val < 16 := by omega
    refine ⟨s.callTo (zextAddr nnn), exec_call nnn s, ?_, fun j hj => ?_, ?_, ?_,
      State.callTo_frame hroom _⟩
    · rw [State.callTo_stack_getElem hroom, if_pos hk]
    · have hother : s.sp.val ≠ j.val := fun h => hj (Fin.ext (h.symm.trans hk))
      rw [State.callTo_stack_getElem hroom, if_neg hother]
    · rw [State.callTo_sp hroom, hk]
    · rw [State.callTo_pc hroom, zextAddr_toNat]
  case full =>
    refine ⟨s.report .stackOverflow, ?_, s.report_trace _, s.report_frame _⟩
    rw [exec_call, State.callTo_of_full hfull]

end

section

namespace Sys2Proof

/-- Family 6 is `LD Vx,byte` alone (30_encoding.md R66). -/
theorem decode_of_op_6 {w : Word} (h : fieldOp w = 0x6) :
    decode w = .ok (.ldByte (fieldX w) (fieldKK w)) := by
  rw [decode, h]
  rfl

/-- Family 7 is `ADD Vx,byte` alone (30_encoding.md R66). -/
theorem decode_of_op_7 {w : Word} (h : fieldOp w = 0x7) :
    decode w = .ok (.addByte (fieldX w) (fieldKK w)) := by
  rw [decode, h]
  rfl

theorem decode_formatXK_ldByte (x : Reg) (kk : Byte) :
    decode (formatXK 0x6 x kk) = .ok (.ldByte x kk) := by
  rw [decode_of_op_6 (fieldOp_formatXK 0x6 x kk), fieldX_formatXK, fieldKK_formatXK]

theorem decode_formatXK_addByte (x : Reg) (kk : Byte) :
    decode (formatXK 0x7 x kk) = .ok (.addByte x kk) := by
  rw [decode_of_op_7 (fieldOp_formatXK 0x7 x kk), fieldX_formatXK, fieldKK_formatXK]

end Sys2Proof

namespace Sys2Proof.Machine

/-- A register write writes that register, nothing else. -/
theorem State.setReg_frame (s : State) (x : Reg) (b : Byte) : Frame [x] [] s (s.setReg x b) where
  regs _ h := s.setReg_reg_of_ne b (Ne.symm (List.ne_of_not_mem_cons h))
  index _ := s.setReg_I x b
  pc _ := s.setReg_pc x b
  stack _ := ⟨s.setReg_sp x b, s.setReg_stack x b⟩
  delayTimer _ := s.setReg_DT x b
  soundTimer _ := s.setReg_ST x b
  memory _ a := congrArg (·.read a) (s.setReg_mem x b)
  pixels _ p := s.setReg_pixel x b p
  run _ := s.setReg_run x b
  trace _ := s.setReg_trace x b
  display _ := s.setReg_display x b
  draws _ := s.setReg_draws x b
  keys := s.setReg_keys x b
  schedule := s.setReg_schedule x b
  cfg := s.setReg_cfg x b

/-- `LD Vx,byte` always completes, with the byte written (43_immediate.md R130). -/
theorem exec_ldByte (x : Reg) (kk : Byte) (s : State) :
    exec (.ldByte x kk) s = .next (s.setReg x kk) := rfl

/-- `ADD Vx,byte` always completes, with the wrapped sum written (43_immediate.md R131). -/
theorem exec_addByte (x : Reg) (kk : Byte) (s : State) :
    exec (.addByte x kk) s = .next (s.setReg x (s.reg x + kk)) := rfl

end Sys2Proof.Machine

open Sys2Proof Sys2Proof.Machine Sys2Proof.Claims

/-- Settles O22: the next state is `s` with `kk` written to `V[x]`, whichever register `x` is. -/
theorem ldByteLoadsTheByte : Obligations.LdByteLoadsTheByte := by
  intro x kk s
  exact ⟨decode_formatXK_ldByte x kk, s.setReg x kk, exec_ldByte x kk s, s.setReg_reg_self x kk,
    s.setReg_frame x kk⟩

/-- Settles O23: the next state is `s` with the sum of two bytes written to `V[x]`, and a sum of
bytes is the sum of their numbers modulo 256. -/
theorem addByteWrapsWithoutFlag : Obligations.AddByteWrapsWithoutFlag := by
  intro x kk s
  have hsum : ((s.setReg x (s.reg x + kk)).reg x).toNat = ((s.reg x).toNat + kk.toNat) % 256 := by
    rw [State.setReg_reg_self, BitVec.toNat_add]
  exact ⟨decode_formatXK_addByte x kk, s.setReg x (s.reg x + kk), exec_addByte x kk s, hsum,
    s.setReg_frame x _⟩

end

section

namespace Sys2Proof

/-- Family 8 is decoded by its selector nibble (30_encoding.md R69). -/
theorem decode_of_op_8 {w : Word} (h : fieldOp w = 0x8) : decode w = decodeAlu w := by
  rw [decode, h]
  rfl

/-- Selector 4 of family 8 is `ADD Vx,Vy` (30_encoding.md R69). -/
theorem decodeAlu_of_n_4 {w : Word} (h : fieldN w = 0x4) :
    decodeAlu w = .ok (.addReg (fieldX w) (fieldY w)) := by
  rw [decodeAlu, h]
  rfl

theorem decode_formatXY_addReg (x y : Reg) : decode (formatXY 0x8 x y 0x4) = .ok (.addReg x y) := by
  rw [decode_of_op_8 (fieldOp_formatXY 0x8 x y 0x4), decodeAlu_of_n_4 (fieldN_formatXY 0x8 x y 0x4),
    fieldX_formatXY, fieldY_formatXY]

end Sys2Proof

namespace Sys2Proof.Machine

/-- A state that differs from `s` in its register file only keeps every other part, so its frame is
the registers it may change. -/
theorem frame_of_eq_with_V {s t : State} {V : Vector Byte 16} {regs : List Reg}
    (h : t = { s with V := V }) (hregs : ∀ r, r ∉ regs → t.reg r = s.reg r) :
    Frame regs [] s t := by
  subst h
  exact {
    regs := hregs
    index := fun _ => rfl
    pc := fun _ => rfl
    stack := fun _ => ⟨rfl, rfl⟩
    delayTimer := fun _ => rfl
    soundTimer := fun _ => rfl
    memory := fun _ _ => rfl
    pixels := fun _ _ => rfl
    run := fun _ => rfl
    trace := fun _ => rfl
    display := fun _ => rfl
    draws := fun _ => rfl
    keys := rfl
    schedule := rfl
    cfg := rfl }

/-- The flag stands in `V[15]` whichever register is the destination (44_alu.md R141). -/
theorem State.writeFlagged_reg_flag (s : State) (x : Reg) (r : Byte × Bool) :
    (s.writeFlagged x r).reg 15 = flagByte r.2 := by
  rw [State.writeFlagged_reg, if_pos flagReg_eq.symm]

theorem State.writeFlagged_reg_dest (s : State) {x : Reg} (r : Byte × Bool) (hx : x ≠ 15) :
    (s.writeFlagged x r).reg x = r.1 := by
  rw [State.writeFlagged_reg, flagReg_eq, if_neg hx, if_pos rfl]

theorem State.writeFlagged_reg_of_ne (s : State) {x q : Reg} (r : Byte × Bool) (hx : q ≠ x)
    (hflag : q ≠ 15) : (s.writeFlagged x r).reg q = s.reg q := by
  rw [State.writeFlagged_reg, flagReg_eq, if_neg hflag, if_neg hx]

/-- A flagged write writes its destination and `V[15]`, nothing else. -/
theorem State.writeFlagged_frame (s : State) (x : Reg) (r : Byte × Bool) :
    Frame [x, 15] [] s (s.writeFlagged x r) :=
  frame_of_eq_with_V (s.writeFlagged_eq x r) fun _ hq =>
    s.writeFlagged_reg_of_ne r (List.ne_of_not_mem_cons hq)
      (List.ne_of_not_mem_cons (List.not_mem_of_not_mem_cons hq))

/-- `ADD Vx,Vy` always completes, with the sum and carry written (44_alu.md R147). -/
theorem exec_addReg (x y : Reg) (s : State) :
    exec (.addReg x y) s = .next (s.writeFlagged x (addFlag (s.reg x) (s.reg y))) := rfl

theorem addFlag_sum_toNat (a b : Byte) : (addFlag a b).1.toNat = (a.toNat + b.toNat) % 256 :=
  BitVec.toNat_ofNat _ 8

theorem addFlag_carry_toNat (a b : Byte) :
    (flagByte (addFlag a b).2).toNat = if 255 < a.toNat + b.toNat then 1 else 0 := by
  rw [flagByte_toNat, addFlag]
  exact if_congr decide_eq_true_iff rfl rfl

end Sys2Proof.Machine

open Sys2Proof Sys2Proof.Machine Sys2Proof.Claims

/-- Settles O26: the next state is `s` with the sum and carry of the old operands written, the flag
last, so it stands in `V[15]` for every `x` and the sum in `V[x]` for every other `x`. -/
theorem addRegSetsCarry : Obligations.AddRegSetsCarry := by
  intro x y s
  refine ⟨decode_formatXY_addReg x y, s.writeFlagged x (addFlag (s.reg x) (s.reg y)),
    exec_addReg x y s, ?carry, fun hx => ?sum, s.writeFlagged_frame x _⟩
  case carry => rw [State.writeFlagged_reg_flag, addFlag_carry_toNat]
  case sum => rw [State.writeFlagged_reg_dest s _ hx, addFlag_sum_toNat]

end

section

namespace Sys2Proof

/-- Family A is `LD I,addr` alone (30_encoding.md R66). -/
theorem decode_of_op_A {w : Word} (h : fieldOp w = 0xA) : decode w = .ok (.ldI (fieldNNN w)) := by
  rw [decode, h]
  rfl

/-- Family B is `JP V0,addr` alone (30_encoding.md R66). -/
theorem decode_of_op_B {w : Word} (h : fieldOp w = 0xB) : decode w = .ok (.jpV0 (fieldNNN w)) := by
  rw [decode, h]
  rfl

theorem decode_formatA_ldI (nnn : Addr) : decode (formatA 0xA nnn) = .ok (.ldI nnn) := by
  rw [decode_of_op_A (fieldOp_formatA 0xA nnn), fieldNNN_formatA]

theorem decode_formatA_jpV0 (nnn : Addr) : decode (formatA 0xB nnn) = .ok (.jpV0 nnn) := by
  rw [decode_of_op_B (fieldOp_formatA 0xB nnn), fieldNNN_formatA]

end Sys2Proof

namespace Sys2Proof.Machine

/-- A write of `I` alone leaves every other part of the state unchanged. -/
theorem State.withI_frame (s : State) (w : Word) : Frame [] [.index] s { s with I := w } where
  regs _ _ := rfl
  index h := absurd (by decide) h
  pc _ := rfl
  stack _ := ⟨rfl, rfl⟩
  delayTimer _ := rfl
  soundTimer _ := rfl
  memory _ _ := rfl
  pixels _ _ := rfl
  run _ := rfl
  trace _ := rfl
  display _ := rfl
  draws _ := rfl
  keys := rfl
  schedule := rfl
  cfg := rfl

/-- `LD I,addr` always completes, with the zero-extended address in `I` (45_index_jump.md R160). -/
theorem exec_ldI (nnn : Addr) (s : State) :
    exec (.ldI nnn) s = .next { s with I := zextAddr nnn } := rfl

/-- `JP V0,addr` always completes, jumped to the offset target (45_index_jump.md R161). -/
theorem exec_jpV0 (nnn : Addr) (s : State) :
    exec (.jpV0 nnn) s = .next (s.jumpTo (s.offsetTarget nnn)) := rfl

theorem zextByte_toNat (b : Byte) : (zextByte b).toNat = b.toNat :=
  BitVec.toNat_setWidth_of_le (by decide)

/-- The offset target is the sum of the two numbers: it is at most `0x10FE`, so the 16-bit addition
does not wrap. -/
theorem State.offsetTarget_toNat (s : State) (nnn : Addr) :
    (s.offsetTarget nnn).toNat = nnn.toNat + (s.reg 0).toNat := by
  have haddr : nnn.toNat < 2 ^ 12 := nnn.isLt
  have hbyte : (s.reg 0).toNat < 2 ^ 8 := (s.reg 0).isLt
  have hfits : (zextAddr nnn).toNat + (zextByte (s.reg 0)).toNat < 2 ^ 16 := by
    rw [zextAddr_toNat, zextByte_toNat]
    omega
  rw [State.offsetTarget, BitVec.toNat_add_of_lt hfits, zextAddr_toNat, zextByte_toNat]

end Sys2Proof.Machine

open Sys2Proof Sys2Proof.Machine Sys2Proof.Claims

/-- Settles O17: the next state is `s` with the zero-extended address in `I`, which is the same
number. -/
theorem ldISetsIndex : Obligations.LdISetsIndex := by
  intro nnn s
  exact ⟨decode_formatA_ldI nnn, { s with I := zextAddr nnn }, exec_ldI nnn s, zextAddr_toNat nnn,
    s.withI_frame _⟩

/-- Settles O18: the next state is `s` jumped to the offset target, a 16-bit sum that does not
wrap. -/
theorem jpV0AddsRegisterZero : Obligations.JpV0AddsRegisterZero := by
  intro nnn s
  have hpc : (s.jumpTo (s.offsetTarget nnn)).pc.toNat = nnn.toNat + (s.reg 0).toNat := by
    rw [State.jumpTo_pc, State.offsetTarget_toNat]
  exact ⟨decode_formatA_jpV0 nnn, s.jumpTo (s.offsetTarget nnn), exec_jpV0 nnn s, hpc,
    s.jumpTo_frame _⟩

end

section

namespace Sys2Proof

/-! ## The families of the decoder not yet named (30_encoding.md R66 to R72) -/

theorem decode_of_op_0 {w : Word} (h : fieldOp w = 0x0) : decode w = .ok (decodeSystem w) := by
  rw [decode, h]
  rfl

theorem decode_of_op_3 {w : Word} (h : fieldOp w = 0x3) :
    decode w = .ok (.seByte (fieldX w) (fieldKK w)) := by
  rw [decode, h]
  rfl

theorem decode_of_op_4 {w : Word} (h : fieldOp w = 0x4) :
    decode w = .ok (.sneByte (fieldX w) (fieldKK w)) := by
  rw [decode, h]
  rfl

theorem decode_of_op_5 {w : Word} (h : fieldOp w = 0x5) :
    decode w = .ok (.seReg (fieldX w) (fieldY w) (fieldN w)) := by
  rw [decode, h]
  rfl

theorem decode_of_op_9 {w : Word} (h : fieldOp w = 0x9) :
    decode w = .ok (.sneReg (fieldX w) (fieldY w) (fieldN w)) := by
  rw [decode, h]
  rfl

theorem decode_of_op_C {w : Word} (h : fieldOp w = 0xC) :
    decode w = .ok (.rnd (fieldX w) (fieldKK w)) := by
  rw [decode, h]
  rfl

theorem decode_of_op_D {w : Word} (h : fieldOp w = 0xD) :
    decode w = .ok (.drw (fieldX w) (fieldY w) (fieldN w)) := by
  rw [decode, h]
  rfl

theorem decode_of_op_E {w : Word} (h : fieldOp w = 0xE) : decode w = decodeKeypad w := by
  rw [decode, h]
  rfl

/-! ## Decoding what the encoder wrote -/

/-- A word of family 0 that is neither the word of `CLS` nor that of `RET` is `SYS`
(30_encoding.md R68, R73). -/
theorem decode_formatA_sys {nnn : Addr} (hcls : nnn ≠ 0x0E0#12) (hret : nnn ≠ 0x0EE#12) :
    decode (formatA 0x0 nnn) = .ok (.sys nnn) := by
  have hne : ∀ {w : Word}, nnn ≠ fieldNNN w → formatA 0x0 nnn ≠ w := fun h e =>
    h (by rw [← e, fieldNNN_formatA])
  have h1 : formatA 0x0 nnn ≠ 0x00E0#16 := hne hcls
  have h2 : formatA 0x0 nnn ≠ 0x00EE#16 := hne hret
  rw [decode_of_op_0 (fieldOp_formatA 0x0 nnn), decodeSystem, if_neg h1, if_neg h2,
    fieldNNN_formatA]

/-- The round trip from a well-formed instruction: the fields of its word are its operands, and its
selector is the one the decoder looks for. -/
theorem decode_encode (i : Instr) (h : i.wellFormed = true) : decode (encode i) = .ok i := by
  cases i with
  | cls | ret => decide
  | sys nnn =>
    have hwf : nnn ≠ 0x0E0#12 ∧ nnn ≠ 0x0EE#12 := by simpa [Instr.wellFormed] using h
    exact decode_formatA_sys hwf.1 hwf.2
  | jp nnn => exact decode_formatA_jp nnn
  | call nnn => exact decode_formatA_call nnn
  | ldI nnn => exact decode_formatA_ldI nnn
  | jpV0 nnn => exact decode_formatA_jpV0 nnn
  | seByte x kk =>
    rw [encode, decode_of_op_3 (fieldOp_formatXK 0x3#4 x kk), fieldX_formatXK, fieldKK_formatXK]
  | sneByte x kk =>
    rw [encode, decode_of_op_4 (fieldOp_formatXK 0x4#4 x kk), fieldX_formatXK, fieldKK_formatXK]
  | ldByte x kk => exact decode_formatXK_ldByte x kk
  | addByte x kk => exact decode_formatXK_addByte x kk
  | rnd x kk =>
    rw [encode, decode_of_op_C (fieldOp_formatXK 0xC#4 x kk), fieldX_formatXK, fieldKK_formatXK]
  | seReg x y n =>
    rw [encode, decode_of_op_5 (fieldOp_formatXY 0x5#4 x y n), fieldX_formatXY, fieldY_formatXY,
      fieldN_formatXY]
  | sneReg x y n =>
    rw [encode, decode_of_op_9 (fieldOp_formatXY 0x9#4 x y n), fieldX_formatXY, fieldY_formatXY,
      fieldN_formatXY]
  | drw x y n =>
    rw [encode, decode_of_op_D (fieldOp_formatXY 0xD#4 x y n), fieldX_formatXY, fieldY_formatXY,
      fieldN_formatXY]
  | ldReg x y | orReg x y | andReg x y | xorReg x y | addReg x y | subReg x y | shrReg x y
  | subnReg x y | shlReg x y =>
    rw [encode, decode_of_op_8 (fieldOp_formatXY 0x8#4 x y _), decodeAlu, fieldN_formatXY,
      fieldX_formatXY, fieldY_formatXY]
    rfl
  | skp x | sknp x =>
    rw [encode, decode_of_op_E (fieldOp_formatXK 0xE#4 x _), decodeKeypad, fieldKK_formatXK,
      fieldX_formatXK]
    rfl
  | ldFromDT x | ldKey x | ldDT x | ldST x | addI x | ldFont x | ldBcd x | storeRegs x
  | loadRegs x =>
    rw [encode, decode_of_op_F (fieldOp_formatXK 0xF#4 x _), decodeMisc, fieldKK_formatXK,
      fieldX_formatXK]
    rfl

/-! ## Encoding what the decoder read -/

/-- An accepted word of family 0 is the word of its instruction. -/
theorem encode_decodeSystem {w : Word} (h : fieldOp w = 0x0) :
    encode (decodeSystem w) = w ∧ (decodeSystem w).wellFormed = true := by
  have hw : formatA 0x0 (fieldNNN w) = w := by rw [← h, formatA_fields]
  unfold decodeSystem
  split
  case isTrue hcls => exact ⟨hcls.symm, rfl⟩
  case isFalse hcls =>
    split
    case isTrue hret => exact ⟨hret.symm, rfl⟩
    case isFalse hret =>
      have h1 : fieldNNN w ≠ 0x0E0#12 := fun e => hcls (by rw [← hw, e]; decide)
      have h2 : fieldNNN w ≠ 0x0EE#12 := fun e => hret (by rw [← hw, e]; decide)
      exact ⟨hw, by simp [Instr.wellFormed, h1, h2]⟩

/-- An accepted word of family 8 is the word of its instruction. -/
theorem encode_of_decodeAlu {w : Word} {i : Instr} (h : fieldOp w = 0x8)
    (hd : decodeAlu w = .ok i) : encode i = w ∧ i.wellFormed = true := by
  have hw := formatXY_fields w
  rw [h] at hw
  unfold decodeAlu at hd
  split at hd <;> cases hd
  all_goals
    rename_i hn
    rw [hn] at hw
    exact ⟨hw, rfl⟩

/-- An accepted word of family E is the word of its instruction. -/
theorem encode_of_decodeKeypad {w : Word} {i : Instr} (h : fieldOp w = 0xE)
    (hd : decodeKeypad w = .ok i) : encode i = w ∧ i.wellFormed = true := by
  have hw := formatXK_fields w
  rw [h] at hw
  unfold decodeKeypad at hd
  split at hd <;> cases hd
  all_goals
    rename_i hkk
    rw [hkk] at hw
    exact ⟨hw, rfl⟩

/-- An accepted word of family F is the word of its instruction. -/
theorem encode_of_decodeMisc {w : Word} {i : Instr} (h : fieldOp w = 0xF)
    (hd : decodeMisc w = .ok i) : encode i = w ∧ i.wellFormed = true := by
  have hw := formatXK_fields w
  rw [h] at hw
  unfold decodeMisc at hd
  split at hd <;> cases hd
  all_goals
    rename_i hkk
    rw [hkk] at hw
    exact ⟨hw, rfl⟩

/-- The round trip from an accepted word, family by family: no bit of it is dropped. -/
theorem encode_of_decode {w : Word} {i : Instr} (h : decode w = .ok i) :
    encode i = w ∧ i.wellFormed = true := by
  unfold decode at h
  split at h
  case h_1 hop => cases h; exact encode_decodeSystem hop
  case h_9 hop => exact encode_of_decodeAlu hop h
  case h_15 hop => exact encode_of_decodeKeypad hop h
  case h_16 =>
    have hop : fieldOp w = 0xF := by
      generalize fieldOp w = op at *
      revert op
      decide
    exact encode_of_decodeMisc hop h
  case h_2 hop | h_3 hop | h_11 hop | h_12 hop =>
    cases h
    exact ⟨by rw [encode, ← hop, formatA_fields], rfl⟩
  case h_4 hop | h_5 hop | h_7 hop | h_8 hop | h_13 hop =>
    cases h
    exact ⟨by rw [encode, ← hop, formatXK_fields], rfl⟩
  case h_6 hop | h_10 hop | h_14 hop =>
    cases h
    exact ⟨by rw [encode, ← hop, formatXY_fields], rfl⟩

/-! ## Unknown words (30_encoding.md R76, R77) -/

/-- The selector nibbles of family 8 (30_encoding.md R69). -/
def aluSelectors : List Nibble := [0x0, 0x1, 0x2, 0x3, 0x4, 0x5, 0x6, 0x7, 0xE]

/-- The selector bytes of family E (30_encoding.md R70). -/
def keypadSelectors : List Byte := [0x9E, 0xA1]

/-- The selector bytes of family F (30_encoding.md R71). -/
def miscSelectors : List Byte := [0x07, 0x0A, 0x15, 0x18, 0x1E, 0x29, 0x33, 0x55, 0x65]

theorem decodeAlu_error_iff (w : Word) :
    decodeAlu w = .error (.unknownInstruction w) ↔ fieldN w ∉ aluSelectors := by
  unfold decodeAlu aluSelectors
  split <;> simp_all

theorem decodeKeypad_error_iff (w : Word) :
    decodeKeypad w = .error (.unknownInstruction w) ↔ fieldKK w ∉ keypadSelectors := by
  unfold decodeKeypad keypadSelectors
  split <;> simp_all

theorem decodeMisc_error_iff (w : Word) :
    decodeMisc w = .error (.unknownInstruction w) ↔ fieldKK w ∉ miscSelectors := by
  unfold decodeMisc miscSelectors
  split <;> simp_all

/-- Only families 8, E and F have unknown words: those whose selector is not listed. -/
theorem decode_error_iff (w : Word) :
    decode w = .error (.unknownInstruction w) ↔
      (fieldOp w = 0x8 ∧ fieldN w ∉ aluSelectors) ∨
        (fieldOp w = 0xE ∧ fieldKK w ∉ keypadSelectors) ∨
        (fieldOp w = 0xF ∧ fieldKK w ∉ miscSelectors) := by
  by_cases h8 : fieldOp w = 0x8
  · rw [decode_of_op_8 h8, decodeAlu_error_iff]
    simp [h8]
  by_cases hE : fieldOp w = 0xE
  · rw [decode_of_op_E hE, decodeKeypad_error_iff]
    simp [hE]
  by_cases hF : fieldOp w = 0xF
  · rw [decode_of_op_F hF, decodeMisc_error_iff]
    simp [hF]
  have hok : decode w ≠ .error (.unknownInstruction w) := by
    unfold decode
    split
    case h_9 h => exact absurd h h8
    case h_15 h => exact absurd h hE
    case h_16 =>
      exfalso
      generalize fieldOp w = op at *
      revert op
      decide
    all_goals simp
  refine iff_of_false hok ?_
  rintro (⟨h, _⟩ | ⟨h, _⟩ | ⟨h, _⟩)
  · exact h8 h
  · exact hE h
  · exact hF h

/-- A rejected word is rejected as `UnknownInstruction` of itself. -/
theorem eq_unknown_of_decode_error {w : Word} {e : Rejection} (h : decode w = .error e) :
    e = .unknownInstruction w := by
  unfold decode decodeAlu decodeKeypad decodeMisc at h
  split at h <;> (try split at h) <;> cases h <;> rfl

/-- Decoding is total. -/
theorem decode_ok_or_unknown (w : Word) :
    (∃ i, decode w = .ok i) ∨ decode w = .error (.unknownInstruction w) := by
  cases hd : decode w with
  | ok i => exact .inl ⟨i, rfl⟩
  | error e => exact .inr (by rw [eq_unknown_of_decode_error hd])

/-! ## The opcode table (30_encoding.md R73) -/

theorem Row.selects_iff (r : Row) (w : Word) : r.selects w = true ↔ w &&& r.mask = r.pattern := by
  simp [Row.selects]

/-- The word of an instruction selects the instruction's row. -/
theorem Instr.row_selects_encode (i : Instr) : i.row.selects (encode i) = true := by
  cases i with
  | cls => exact Laws.SelectsRow.cls
  | ret => exact Laws.SelectsRow.ret
  | sys nnn => exact Laws.SelectsRow.sys nnn
  | jp nnn => exact Laws.SelectsRow.jp nnn
  | call nnn => exact Laws.SelectsRow.call nnn
  | seByte x kk => exact Laws.SelectsRow.seByte x kk
  | sneByte x kk => exact Laws.SelectsRow.sneByte x kk
  | seReg x y n => exact Laws.SelectsRow.seReg x y n
  | ldByte x kk => exact Laws.SelectsRow.ldByte x kk
  | addByte x kk => exact Laws.SelectsRow.addByte x kk
  | ldReg x y => exact Laws.SelectsRow.ldReg x y
  | orReg x y => exact Laws.SelectsRow.orReg x y
  | andReg x y => exact Laws.SelectsRow.andReg x y
  | xorReg x y => exact Laws.SelectsRow.xorReg x y
  | addReg x y => exact Laws.SelectsRow.addReg x y
  | subReg x y => exact Laws.SelectsRow.subReg x y
  | shrReg x y => exact Laws.SelectsRow.shrReg x y
  | subnReg x y => exact Laws.SelectsRow.subnReg x y
  | shlReg x y => exact Laws.SelectsRow.shlReg x y
  | sneReg x y n => exact Laws.SelectsRow.sneReg x y n
  | ldI nnn => exact Laws.SelectsRow.ldI nnn
  | jpV0 nnn => exact Laws.SelectsRow.jpV0 nnn
  | rnd x kk => exact Laws.SelectsRow.rnd x kk
  | drw x y n => exact Laws.SelectsRow.drw x y n
  | skp x => exact Laws.SelectsRow.skp x
  | sknp x => exact Laws.SelectsRow.sknp x
  | ldFromDT x => exact Laws.SelectsRow.ldFromDT x
  | ldKey x => exact Laws.SelectsRow.ldKey x
  | ldDT x => exact Laws.SelectsRow.ldDT x
  | ldST x => exact Laws.SelectsRow.ldST x
  | addI x => exact Laws.SelectsRow.addI x
  | ldFont x => exact Laws.SelectsRow.ldFont x
  | ldBcd x => exact Laws.SelectsRow.ldBcd x
  | storeRegs x => exact Laws.SelectsRow.storeRegs x
  | loadRegs x => exact Laws.SelectsRow.loadRegs x

theorem Instr.row_mem_opcodeTable (i : Instr) : i.row ∈ opcodeTable := by
  cases i <;> simp [opcodeTable, Instr.row]

/-- Two rows of the table that agree where both masks look are one row, or `SYS` with `CLS` or
`RET`. -/
theorem opcodeTable_overlap : ∀ r ∈ opcodeTable, ∀ r' ∈ opcodeTable,
    r.pattern &&& r'.mask = r'.pattern &&& r.mask →
    r = r' ∨ (r = (Instr.sys 0).row ∧ r' ∈ [Instr.cls.row, Instr.ret.row]) ∨
      (r' = (Instr.sys 0).row ∧ r ∈ [Instr.cls.row, Instr.ret.row]) := by
  decide

/-- Two rows that a word selects agree where both masks look. -/
theorem Row.selects_agree {r r' : Row} {w : Word} (h : r.selects w = true)
    (h' : r'.selects w = true) : r.pattern &&& r'.mask = r'.pattern &&& r.mask := by
  rw [Row.selects_iff] at h h'
  rw [← h, ← h', BitVec.and_assoc, BitVec.and_assoc, BitVec.and_comm r.mask]

theorem Instr.eq_cls_or_ret_of_row {i : Instr} (h : i.row ∈ [Instr.cls.row, Instr.ret.row]) :
    i = .cls ∨ i = .ret := by
  cases i <;> simp_all [Instr.row]

/-- The rows of the families with selectors look at the whole selector, and only at listed ones. -/
theorem opcodeTable_selectors : ∀ r ∈ opcodeTable, fieldOp r.mask = 0xF ∧
    (fieldOp r.pattern = 0x8 → fieldN r.mask = 0xF ∧ fieldN r.pattern ∈ aluSelectors) ∧
    (fieldOp r.pattern = 0xE → fieldKK r.mask = 0xFF ∧ fieldKK r.pattern ∈ keypadSelectors) ∧
    (fieldOp r.pattern = 0xF → fieldKK r.mask = 0xFF ∧ fieldKK r.pattern ∈ miscSelectors) := by
  decide

theorem fieldOp_and (w v : Word) : fieldOp (w &&& v) = fieldOp w &&& fieldOp v :=
  BitVec.extractLsb'_and

theorem fieldN_and (w v : Word) : fieldN (w &&& v) = fieldN w &&& fieldN v :=
  BitVec.extractLsb'_and

theorem fieldKK_and (w v : Word) : fieldKK (w &&& v) = fieldKK w &&& fieldKK v :=
  BitVec.extractLsb'_and

/-- An unknown word selects no row: the row would be one of its family, and would look at the whole
selector. -/
theorem no_row_of_decode_error {w : Word} (h : decode w = .error (.unknownInstruction w)) :
    ∀ r ∈ opcodeTable, r.selects w = false := by
  intro r hr
  by_contra hsel
  have hw : w &&& r.mask = r.pattern := (r.selects_iff w).1 (by simpa using hsel)
  obtain ⟨hmask, halu, hkeypad, hmisc⟩ := opcodeTable_selectors r hr
  have hop : fieldOp r.pattern = fieldOp w := by
    rw [← hw, fieldOp_and, hmask]
    exact BitVec.and_allOnes
  have hn (hm : fieldN r.mask = 0xF) : fieldN r.pattern = fieldN w := by
    rw [← hw, fieldN_and, hm]
    exact BitVec.and_allOnes
  have hkk (hm : fieldKK r.mask = 0xFF) : fieldKK r.pattern = fieldKK w := by
    rw [← hw, fieldKK_and, hm]
    exact BitVec.and_allOnes
  rcases (decode_error_iff w).1 h with ⟨hw8, hsel⟩ | ⟨hwE, hsel⟩ | ⟨hwF, hsel⟩
  · obtain ⟨hm, hmem⟩ := halu (hop.trans hw8)
    exact hsel (hn hm ▸ hmem)
  · obtain ⟨hm, hmem⟩ := hkeypad (hop.trans hwE)
    exact hsel (hkk hm ▸ hmem)
  · obtain ⟨hm, hmem⟩ := hmisc (hop.trans hwF)
    exact hsel (hkk hm ▸ hmem)

/-- The word of a `SYS` selects neither the row of `CLS` nor that of `RET`: those rows select their
own words only, which decode to `CLS` and `RET`. -/
theorem sys_selects_sys_only {w : Word} {i : Instr} {r : Row} (h : decode w = .ok i)
    (hi : i.row = (Instr.sys 0).row) (hr : r ∈ [Instr.cls.row, Instr.ret.row]) :
    r.selects w = false := by
  by_contra hsel
  have hw := (r.selects_iff w).1 (by simpa using hsel)
  have hmask : ∀ r ∈ [Instr.cls.row, Instr.ret.row], r.mask = BitVec.allOnes 16 := by decide
  rw [hmask r hr, BitVec.and_allOnes] at hw
  subst hw
  have hdecode : ∀ r ∈ [Instr.cls.row, Instr.ret.row],
      decode r.pattern = .ok .cls ∨ decode r.pattern = .ok .ret := by decide
  rcases hdecode r hr with hd | hd <;>
  · rw [hd] at h
    cases h
    exact absurd hi (by decide)

/-! ## The digits of a word -/

theorem fieldOp_toNat (w : Word) : (fieldOp w).toNat = w.toNat / 4096 := by
  have : w.toNat < 2 ^ 16 := w.isLt
  simp only [fieldOp, BitVec.extractLsb'_toNat, Nat.shiftRight_eq_div_pow]
  omega

theorem fieldN_toNat (w : Word) : (fieldN w).toNat = w.toNat % 16 := by
  simp [fieldN]

theorem fieldKK_toNat (w : Word) : (fieldKK w).toNat = w.toNat % 256 := by
  simp [fieldKK]

/-- A bit vector is listed exactly when its number is. -/
theorem toNat_mem_map {k : Nat} (b : BitVec k) (l : List (BitVec k)) :
    b.toNat ∈ l.map BitVec.toNat ↔ b ∈ l :=
  List.mem_map_of_injective fun _ _ => BitVec.eq_of_toNat_eq

end Sys2Proof

open Sys2Proof Sys2Proof.Machine Sys2Proof.Claims

/-- Settles O1: the round trip of `decode_encode`. -/
theorem decodeOfEncodeIsTheInstruction : Obligations.DecodeOfEncodeIsTheInstruction :=
  decode_encode

/-- Settles O2: the round trip of `encode_of_decode`. -/
theorem encodeOfDecodeIsTheWord : Obligations.EncodeOfDecodeIsTheWord :=
  fun _ _ => encode_of_decode

/-- Settles O3: an accepted word is the word of its instruction, so it selects that row; two rows
one word selects agree where both look, which leaves the priority of `CLS` and `RET`; and an unknown
word would need a row of its own family, with its selector. -/
theorem decodeFollowsTheOpcodeTable : Obligations.DecodeFollowsTheOpcodeTable := by
  intro w
  have hown : ∀ {i}, decode w = .ok i → i.row.selects w = true := fun {i} h =>
    (encode_of_decode h).1 ▸ i.row_selects_encode
  refine ⟨decode_ok_or_unknown w, fun i h => ⟨hown h, i.row_mem_opcodeTable, fun r hr hsel => ?_⟩,
    fun hnone => ?_, no_row_of_decode_error⟩
  · rcases opcodeTable_overlap r hr _ i.row_mem_opcodeTable (Row.selects_agree hsel (hown h)) with
      heq | ⟨hsys, hi⟩ | ⟨hsys, hi⟩
    · exact .inl heq
    · exact .inr ⟨hsys, Instr.eq_cls_or_ret_of_row hi⟩
    · rw [sys_selects_sys_only h hsys hi] at hsel
      cases hsel
  · refine (decode_ok_or_unknown w).resolve_left fun ⟨i, h⟩ => ?_
    have := hown h
    rw [hnone _ i.row_mem_opcodeTable] at this
    cases this

/-- Settles O4: the unknown words by their fields, each field read as a number. -/
theorem unknownWordsAreExactlyThese : Obligations.UnknownWordsAreExactlyThese := by
  intro w
  have halu : ∀ n : Nibble,
      n ∉ aluSelectors ↔ n.toNat ∈ [0x8, 0x9, 0xA, 0xB, 0xC, 0xD, 0xF] := by decide
  have hop (op : Nibble) : fieldOp w = op ↔ w.toNat / 4096 = op.toNat := by
    rw [← fieldOp_toNat, BitVec.toNat_inj]
  rw [decode_error_iff, halu, fieldN_toNat, ← toNat_mem_map (fieldKK w),
    ← toNat_mem_map (fieldKK w), fieldKK_toNat, hop, hop, hop]
  rfl

/-- Settles O5: each word is decoded by evaluation. -/
theorem sampleWordsDecode : Obligations.SampleWordsDecode := by
  unfold Obligations.SampleWordsDecode
  decide

end

section

namespace Sys2Proof.Machine

/-! ## Frames put together -/

variable {s t u : State} {regs regs' : List Reg} {parts parts' : List Part}

theorem Frame.refl (regs : List Reg) (parts : List Part) (s : State) : Frame regs parts s s := by
  constructor <;> simp

/-- A frame may name more than what changes. -/
theorem Frame.mono (h : Frame regs parts s t) (hr : regs ⊆ regs') (hp : parts ⊆ parts') :
    Frame regs' parts' s t where
  regs r hn := h.regs r fun hm => hn (hr hm)
  index hn := h.index fun hm => hn (hp hm)
  pc hn := h.pc fun hm => hn (hp hm)
  stack hn := h.stack fun hm => hn (hp hm)
  delayTimer hn := h.delayTimer fun hm => hn (hp hm)
  soundTimer hn := h.soundTimer fun hm => hn (hp hm)
  memory hn := h.memory fun hm => hn (hp hm)
  pixels hn := h.pixels fun hm => hn (hp hm)
  run hn := h.run fun hm => hn (hp hm)
  trace hn := h.trace fun hm => hn (hp hm)
  display hn := h.display fun hm => hn (hp hm)
  draws hn := h.draws fun hm => hn (hp hm)
  keys := h.keys
  schedule := h.schedule
  cfg := h.cfg

/-- Two changes inside one frame stay inside it. -/
theorem Frame.trans (h : Frame regs parts s t) (h' : Frame regs parts t u) :
    Frame regs parts s u where
  regs r hn := (h'.regs r hn).trans (h.regs r hn)
  index hn := (h'.index hn).trans (h.index hn)
  pc hn := (h'.pc hn).trans (h.pc hn)
  stack hn := ⟨(h'.stack hn).1.trans (h.stack hn).1, (h'.stack hn).2.trans (h.stack hn).2⟩
  delayTimer hn := (h'.delayTimer hn).trans (h.delayTimer hn)
  soundTimer hn := (h'.soundTimer hn).trans (h.soundTimer hn)
  memory hn a := (h'.memory hn a).trans (h.memory hn a)
  pixels hn p := (h'.pixels hn p).trans (h.pixels hn p)
  run hn := (h'.run hn).trans (h.run hn)
  trace hn := (h'.trace hn).trans (h.trace hn)
  display hn := (h'.display hn).trans (h.display hn)
  draws hn := (h'.draws hn).trans (h.draws hn)
  keys := h'.keys.trans h.keys
  schedule := h'.schedule.trans h.schedule
  cfg := h'.cfg.trans h.cfg

/-- One change after another stays in the two frames together. -/
theorem Frame.seq (h : Frame regs parts s t) (h' : Frame regs' parts' t u) :
    Frame (regs ++ regs') (parts ++ parts') s u :=
  (h.mono (List.subset_append_left _ _) (List.subset_append_left _ _)).trans
    (h'.mono (List.subset_append_right _ _) (List.subset_append_right _ _))

/-! ## The frames of the shared operations -/

variable (s)

/-- An AddressFault halts the core and makes its record (20_memory.md R48). -/
theorem State.addressFault_frame (a : Word) : Frame [] [.run, .trace] s (s.addressFault a) := by
  constructor <;> simp [State.reg, State.pixel]

theorem State.skipIf_frame (c : Bool) : Frame [] [.pc] s (s.skipIf c) := by
  rw [State.skipIf_eq]
  constructor <;> simp [State.reg, State.pixel]

/-- A return with a live entry. -/
theorem State.returnFrom_of_live {s : State} (h : 0 < s.sp.val) :
    s.returnFrom =
      { s with sp := ⟨s.sp.val - 1, by omega⟩, pc := s.stack[s.sp.val - 1]'(by omega) } := by
  obtain ⟨_, hret⟩ | ⟨hempty, _⟩ := s.returnFrom_cases
  · exact hret
  · omega

/-- A return with no live entry. -/
theorem State.returnFrom_of_empty {s : State} (h : s.sp.val = 0) :
    s.returnFrom = s.report .stackUnderflow := by
  obtain ⟨hlive, _⟩ | ⟨_, hret⟩ := s.returnFrom_cases
  · omega
  · exact hret

@[simp] theorem State.returnFrom_stack : s.returnFrom.stack = s.stack := by
  obtain ⟨_, h⟩ | ⟨_, h⟩ := s.returnFrom_cases <;> rw [h]
  rfl

/-- A return with a live entry writes `pc` and the stack, nothing else. -/
theorem State.returnFrom_frame_of_live {s : State} (h : 0 < s.sp.val) :
    Frame [] [.pc, .stack] s s.returnFrom := by
  rw [State.returnFrom_of_live h]
  constructor <;> simp [State.reg, State.pixel]

theorem State.returnFrom_frame : Frame [] [.pc, .stack, .trace] s s.returnFrom := by
  by_cases h : s.sp.val = 0
  · rw [State.returnFrom_of_empty h]
    exact (s.report_frame _).mono (by simp) (by simp)
  · exact (State.returnFrom_frame_of_live (by omega)).mono (by simp) (by simp)

theorem State.callTo_frame_all (w : Word) : Frame [] [.pc, .stack, .trace] s (s.callTo w) := by
  by_cases h : s.sp.val < 16
  · exact (State.callTo_frame h w).mono (by simp) (by simp)
  · rw [State.callTo_of_full (by omega)]
    exact (s.report_frame _).mono (by simp) (by simp)

/-- A logic operation writes its destination, and the flag register under the quirk
(44_alu.md R142). -/
theorem State.writeLogic_frame (x : Reg) (b : Byte) : Frame [x, 15] [] s (s.writeLogic x b) :=
  frame_of_eq_with_V (s.writeLogic_eq x b) fun q hq => by
    have hflag : q ≠ flagReg := List.ne_of_not_mem_cons (List.not_mem_of_not_mem_cons hq)
    rw [State.writeLogic_reg, if_neg fun h => hflag h.2, if_neg (List.ne_of_not_mem_cons hq)]

/-- A draw of a free byte changes the counter of draws, nothing else. -/
theorem State.drawByte_frame : Frame [] [.draws] s s.drawByte.2 := by
  constructor <;> simp [State.drawByte, State.reg, State.pixel]

/-- A key test changes at most the counter of draws. -/
theorem State.pressed_frame (b : Byte) : Frame [] [.draws] s (s.pressed b).2 := by
  obtain ⟨_, h⟩ | ⟨_, h⟩ := s.pressed_cases b <;> rw [h]
  · exact Frame.refl _ _ s
  · constructor <;> simp [State.reg, State.pixel]

/-- Stores change memory, nothing else. -/
theorem State.writeBytes_frame (a : Word) (bs : List Byte) :
    Frame [] [.memory] s (s.writeBytes a bs) := by
  rw [State.writeBytes_eq]
  constructor <;> simp [State.reg, State.pixel]

/-- A run of register writes from register 0 changes the registers it reaches, nothing else. -/
theorem State.setRegsFrom_frame (x : Reg) (bs : List Byte) (h : bs.length = x.val + 1) :
    Frame (regsThrough x) [] s (s.setRegsFrom 0 bs) :=
  frame_of_eq_with_V (s.setRegsFrom_eq 0 bs) fun q hq => by
    have hlt : x.val < q.val := by simpa [regsThrough] using hq
    rw [State.setRegsFrom_reg, dif_neg (by omega)]

/-- A drawn sprite changes the flag register, the pixels and the display record, nothing else. -/
theorem State.drawSprite_frame (x y : Reg) (n : Nat) :
    Frame [flagReg] [.pixels, .display] s (s.drawSprite x y n) where
  regs q hq := s.drawSprite_reg x y n q (List.ne_of_not_mem_cons hq)
  index _ := by rw [State.drawSprite_eq]
  pc _ := by rw [State.drawSprite_eq]
  stack _ := by rw [State.drawSprite_eq]; exact ⟨rfl, rfl⟩
  delayTimer _ := by rw [State.drawSprite_eq]
  soundTimer _ := by rw [State.drawSprite_eq]
  memory _ _ := by rw [State.drawSprite_eq]
  pixels h := absurd (by decide) h
  run _ := by rw [State.drawSprite_eq]
  trace _ := by rw [State.drawSprite_eq]
  display h := absurd (by decide) h
  draws _ := by rw [State.drawSprite_eq]
  keys := by rw [State.drawSprite_eq]
  schedule := by rw [State.drawSprite_eq]
  cfg := by rw [State.drawSprite_eq]

end Sys2Proof.Machine

end

section

namespace Sys2Proof.Machine

/-! ## Every instruction as its accesses and its effect -/

/-- The addresses an instruction accesses through `I`, in order. -/
def State.accesses (s : State) : Instr → List Word
  | .drw _ _ n => span s.I n.toNat
  | .ldBcd _ => span s.I 3
  | .storeRegs x | .loadRegs x => span s.I (x.val + 1)
  | _ => []

/-- The state an instruction leaves when every address it accesses exists. -/
def State.effect (s : State) : Instr → State
  | .cls => s.clearPixels
  | .ret => s.returnFrom
  | .sys nnn => s.report (.sysIgnored nnn)
  | .jp nnn => s.jumpTo (zextAddr nnn)
  | .call nnn => s.callTo (zextAddr nnn)
  | .seByte x kk => s.skipIf (s.reg x == kk)
  | .sneByte x kk => s.skipIf (s.reg x != kk)
  | .seReg x y _ => s.skipIf (s.reg x == s.reg y)
  | .ldByte x kk => s.setReg x kk
  | .addByte x kk => s.setReg x (s.reg x + kk)
  | .ldReg x y => s.setReg x (s.reg y)
  | .orReg x y => s.writeLogic x (s.reg x ||| s.reg y)
  | .andReg x y => s.writeLogic x (s.reg x &&& s.reg y)
  | .xorReg x y => s.writeLogic x (s.reg x ^^^ s.reg y)
  | .addReg x y => s.writeFlagged x (addFlag (s.reg x) (s.reg y))
  | .subReg x y => s.writeFlagged x (subFlag (s.reg x) (s.reg y))
  | .shrReg x y => s.writeFlagged x (shrFlag (s.reg y))
  | .subnReg x y => s.writeFlagged x (subFlag (s.reg y) (s.reg x))
  | .shlReg x y => s.writeFlagged x (shlFlag (s.reg y))
  | .sneReg x y _ => s.skipIf (s.reg x != s.reg y)
  | .ldI nnn => { s with I := zextAddr nnn }
  | .jpV0 nnn => s.jumpTo (s.offsetTarget nnn)
  | .rnd x kk => s.drawByte.2.maskInto x kk s.drawByte.1
  | .drw x y n => s.drawSprite x y n.toNat
  | .skp x => (s.pressed (s.reg x)).2.skipIf (s.pressed (s.reg x)).1
  | .sknp x => (s.pressed (s.reg x)).2.skipIf (!(s.pressed (s.reg x)).1)
  | .ldFromDT x => s.setReg x s.DT
  | .ldKey x => { s with run := .awaitingKey x }
  | .ldDT x => { s with DT := s.reg x }
  | .ldST x => { s with ST := s.reg x }
  | .addI x => { s with I := s.indexPlus x }
  | .ldFont x => { s with I := glyphBase (s.reg x) }
  | .ldBcd x => s.writeBytes s.I (decimalDigits (s.reg x))
  | .storeRegs x => { s.writeBytes s.I (s.regsUpTo x) with I := s.indexPast x }
  | .loadRegs x => { s.setRegsFrom 0 (s.readBytes s.I (x.val + 1)) with I := s.indexPast x }

/-- The parts an instruction may write when every address it accesses exists: those of `destParts`
without the halt and the record of an AddressFault. -/
def effectParts : Instr → List Part
  | .drw _ _ _ => [.pixels, .display]
  | .ldBcd _ => [.memory]
  | .storeRegs _ => [.memory, .index]
  | .loadRegs _ => [.index]
  | i => destParts i

/-- The execute phase is the range check of the accesses and then the effect. -/
theorem exec_eq_accessing (i : Instr) (s : State) :
    exec i s = s.accessing (s.accesses i) (s.effect i) := by
  cases i <;> rfl

/-- Everything an instruction can do: stop at an address that does not exist, or have its effect. -/
theorem exec_cases {i : Instr} {s t : State} (h : exec i s = .next t) :
    (∃ a ∈ s.accesses i, outOfRange s.cfg.addrPolicy a = true ∧ t = s.addressFault a) ∨
      ((∀ a ∈ s.accesses i, outOfRange s.cfg.addrPolicy a = false) ∧ t = s.effect i) := by
  rw [exec_eq_accessing] at h
  exact s.accessing_cases _ _ _ h

/-- With every address it accesses in range, an instruction has its effect. -/
theorem exec_of_inRange {i : Instr} {s : State}
    (h : ∀ a ∈ s.accesses i, outOfRange s.cfg.addrPolicy a = false) :
    exec i s = .next (s.effect i) := by
  rw [exec_eq_accessing, State.accessing_of_inRange _ _ _ h]

/-- An instruction's effect stays within its registers and parts. -/
theorem State.effect_frame (s : State) (i : Instr) :
    Frame (destRegs i) (effectParts i) s (s.effect i) := by
  cases i with
  | cls => exact s.clearPixels_frame
  | ret => exact s.returnFrom_frame
  | sys nnn => exact s.report_frame _
  | jp nnn | jpV0 nnn => exact s.jumpTo_frame _
  | call nnn => exact s.callTo_frame_all _
  | seByte x kk | sneByte x kk => exact s.skipIf_frame _
  | seReg x y n | sneReg x y n => exact s.skipIf_frame _
  | ldByte x kk | addByte x kk => exact s.setReg_frame x _
  | ldReg x y => exact s.setReg_frame x _
  | ldFromDT x => exact s.setReg_frame x _
  | orReg x y | andReg x y | xorReg x y => exact s.writeLogic_frame x _
  | addReg x y | subReg x y | shrReg x y | subnReg x y | shlReg x y =>
    exact s.writeFlagged_frame x _
  | ldI nnn => exact s.withI_frame _
  | addI x | ldFont x => exact s.withI_frame _
  | rnd x kk => exact s.drawByte_frame.seq (s.drawByte.2.setReg_frame x _)
  | drw x y n => exact s.drawSprite_frame x y n.toNat
  | skp x | sknp x =>
    exact ((s.pressed_frame _).seq (State.skipIf_frame _ _)).mono (List.Subset.refl _)
      (List.Perm.swap _ _ _).subset
  | ldKey x | ldDT x | ldST x =>
    constructor <;> simp [effect, effectParts, destParts, State.reg, State.pixel]
  | ldBcd x => exact s.writeBytes_frame _ _
  | storeRegs x => exact (s.writeBytes_frame _ _).seq (State.withI_frame _ _)
  | loadRegs x =>
    have hregs := s.setRegsFrom_frame x _ (s.readBytes_length s.I (x.val + 1))
    exact (hregs.seq (State.withI_frame _ _)).mono (by simp [destRegs]) (List.Subset.refl _)

/-! ## Every instruction step as an effect or a report -/

/-- Everything an instruction step can do: stop at a fetch or an access that does not exist, have
the effect of the decoded instruction, or report an unknown word. -/
theorem State.instrStep_outcome {s t : State} (h : s.instrStep = .next t) :
    (∃ a, outOfRange s.cfg.addrPolicy a = true ∧ t = s.addressFault a) ∨
      (s.fetchFault = none ∧
        ((∃ a, outOfRange s.cfg.addrPolicy a = true ∧ t = s.advance.addressFault a) ∨
          (∃ i, t = s.advance.effect i) ∨ t = s.advance.unknownInstruction s.fetchWord)) := by
  obtain ⟨a, hf, rfl⟩ | ⟨hf, i, -, hexec⟩ | ⟨hf, rfl⟩ := State.instrStep_cases h
  · exact .inl ⟨a, List.find?_some hf, rfl⟩
  · obtain ⟨a, -, ha, rfl⟩ | ⟨-, rfl⟩ := exec_cases hexec
    · exact .inr ⟨hf, .inl ⟨a, ha, rfl⟩⟩
    · exact .inr ⟨hf, .inr (.inl ⟨i, rfl⟩)⟩
  · exact .inr ⟨hf, .inr (.inr rfl)⟩

/-! ## Canonical memory -/

@[simp] theorem State.skipIf_mem (s : State) (c : Bool) : (s.skipIf c).mem = s.mem := by
  rw [State.skipIf_eq]

@[simp] theorem State.returnFrom_mem (s : State) : s.returnFrom.mem = s.mem := by
  obtain ⟨_, h⟩ | ⟨_, h⟩ := s.returnFrom_cases <;> rw [h]
  rfl

@[simp] theorem State.callTo_mem (s : State) (w : Word) : (s.callTo w).mem = s.mem := by
  obtain ⟨_, h⟩ | ⟨_, h⟩ := s.callTo_cases w <;> rw [h]
  rfl

@[simp] theorem State.pressed_mem (s : State) (b : Byte) : (s.pressed b).2.mem = s.mem := by
  obtain ⟨_, h⟩ | ⟨_, h⟩ := s.pressed_cases b <;> rw [h]

@[simp] theorem State.writeFlagged_mem (s : State) (x : Reg) (r : Byte × Bool) :
    (s.writeFlagged x r).mem = s.mem := by rw [State.writeFlagged_eq]

@[simp] theorem State.writeLogic_mem (s : State) (x : Reg) (b : Byte) :
    (s.writeLogic x b).mem = s.mem := by rw [State.writeLogic_eq]

@[simp] theorem State.drawSprite_mem (s : State) (x y : Reg) (n : Nat) :
    (s.drawSprite x y n).mem = s.mem := by rw [State.drawSprite_eq]

@[simp] theorem State.setRegsFrom_mem (s : State) (k : Nat) (bs : List Byte) :
    (s.setRegsFrom k bs).mem = s.mem := by rw [State.setRegsFrom_eq]

/-- An effect leaves memory canonical: it stores through `writeBytes` or leaves memory as it is. -/
theorem State.effect_memCanonical {s : State} (i : Instr) (h : s.memCanonical) :
    (s.effect i).memCanonical := by
  cases i with
  | ldBcd x | storeRegs x => exact s.writeBytes_wf _ _ h
  | _ => simpa [effect, State.memCanonical, State.drawByte, State.maskInto] using h

end Sys2Proof.Machine

open Sys2Proof Sys2Proof.Machine Sys2Proof.Claims

/-- Settles O55: an effect is the one thing in a step that stores, and it stores through
`writeBytes`. -/
theorem stepKeepsMemoryCanonical : Obligations.StepKeepsMemoryCanonical := by
  intro s t hs h
  refine step_keeps State.memCanonical (fun _ _ h => h) ?_ (fun _ h => h) (fun _ h => h)
    (fun _ _ h => h) (fun s k hs => ?_) hs h
  · intro s t hs _ h
    obtain ⟨a, -, rfl⟩ | ⟨-, ⟨a, -, rfl⟩ | ⟨i, rfl⟩ | rfl⟩ := State.instrStep_outcome h
    · exact hs
    · exact hs
    · exact State.effect_memCanonical i (s := s.advance) hs
    · exact hs
  · obtain ⟨kx, -, h⟩ | ⟨-, h⟩ := s.keyPress_cases k <;> rw [h] <;> exact hs

end

section

namespace Sys2Proof.Machine

/-! ## Every step as a turn of `s` with the schedule used up -/

/-- Everything a step can do, the schedule apart: an instruction step of a running core, nothing, a
tick, a quit, a change of the held keys, or a key press that ends a wait. -/
theorem step_outcome {s t : State} (h : step s = .next t) :
    ∃ l, (s.run = .running ∧ ({ s with schedule := l } : State).instrStep = .next t) ∨
      t = { s with schedule := l } ∨ t = State.tick { s with schedule := l } ∨
      t = State.quit { s with schedule := l } ∨
      (∃ held, t = State.holdKeys { s with schedule := l } held) ∨
      ∃ kx b, s.run = .awaitingKey kx ∧
        t = { State.setReg { s with schedule := l } kx b with run := .running } := by
  have core {l : List Turn} (h : ({ s with schedule := l } : State).coreTurn = .next t) :
      (s.run = .running ∧ ({ s with schedule := l } : State).instrStep = .next t) ∨
        t = { s with schedule := l } :=
    (State.coreTurn_cases h).imp id fun ⟨_, _, ht⟩ => ht
  obtain ⟨hs, h⟩ | ⟨x, xs, -, h⟩ := (step_cases h).2
  · exact ⟨s.schedule, (core h).imp_right .inl⟩
  · refine ⟨xs, ?_⟩
    cases x with
    | core => exact (core h).imp_right .inl
    | tick => cases h; exact .inr (.inr (.inl rfl))
    | quit => cases h; exact .inr (.inr (.inr (.inl rfl)))
    | heldKeys held => cases h; exact .inr (.inr (.inr (.inr (.inl ⟨held, rfl⟩))))
    | keyPress k =>
      cases h
      obtain ⟨kx, hr, h⟩ | ⟨-, h⟩ := State.keyPress_cases { s with schedule := xs } k
      · exact .inr (.inr (.inr (.inr (.inr ⟨kx, _, hr, h⟩))))
      · exact .inr (.inl h)

/-! ## The record of an effect -/

/-- An effect makes at most one record, and never that of an AddressFault. -/
theorem State.effect_trace (s : State) (i : Instr) :
    ∃ new, (s.effect i).trace = s.trace ++ new ∧ new.length ≤ 1 ∧
      ∀ a, Report.addressFault a ∉ new := by
  have report (r : Report) (h : ∀ a, r ≠ .addressFault a) :
      ∃ new, (s.report r).trace = s.trace ++ new ∧ new.length ≤ 1 ∧
        ∀ a, Report.addressFault a ∉ new :=
    ⟨[r], rfl, by simp, fun a => by simpa using (h a).symm⟩
  have unchanged {t : State} (h : t.trace = s.trace) :
      ∃ new, t.trace = s.trace ++ new ∧ new.length ≤ 1 ∧ ∀ a, Report.addressFault a ∉ new :=
    ⟨[], by simp [h], by simp, by simp⟩
  cases i with
  | ret =>
    obtain ⟨_, h⟩ | ⟨_, h⟩ := s.returnFrom_cases <;> rw [effect, h]
    · exact unchanged rfl
    · exact report _ (by simp)
  | call nnn =>
    obtain ⟨_, h⟩ | ⟨_, h⟩ := s.callTo_cases (zextAddr nnn) <;> rw [effect, h]
    · exact unchanged rfl
    · exact report _ (by simp)
  | sys nnn => exact report _ (by simp)
  | _ => exact unchanged ((s.effect_frame _).trace (by simp [effectParts, destParts]))

/-- An effect leaves the run state as it is, or suspends the core for a key. -/
theorem State.effect_run (s : State) (i : Instr) :
    (s.effect i).run = s.run ∨ ∃ x, (s.effect i).run = .awaitingKey x := by
  cases i with
  | ldKey x => exact .inr ⟨x, rfl⟩
  | _ => exact .inl ((s.effect_frame _).run (by simp [effectParts, destParts]))

/-! ## The record of an AddressFault -/

/-- A state with no AddressFault on record that has not halted for one. -/
theorem State.faultIsHalt_of_none {s : State} (h : ∀ a, Report.addressFault a ∉ s.trace)
    (hrun : s.run ≠ .halted .addressFault) : s.faultIsHalt :=
  iff_of_false (fun ⟨a, ha⟩ => h a ha) hrun

theorem State.addressFault_faultIsHalt (s : State) (a : Word) : (s.addressFault a).faultIsHalt :=
  iff_of_true ⟨a, by simp⟩ rfl

/-- An instruction step from a running state with no AddressFault on record. -/
theorem State.instrStep_faultIsHalt {s t : State} (hnone : ∀ a, Report.addressFault a ∉ s.trace)
    (hrun : s.run = .running) (h : s.instrStep = .next t) : t.faultIsHalt := by
  obtain ⟨a, -, rfl⟩ | ⟨-, ⟨a, -, rfl⟩ | ⟨i, rfl⟩ | rfl⟩ := State.instrStep_outcome h
  · exact s.addressFault_faultIsHalt a
  · exact s.advance.addressFault_faultIsHalt a
  · obtain ⟨new, htrace, -, hnew⟩ := s.advance.effect_trace i
    refine State.faultIsHalt_of_none (fun a ha => ?_) ?_
    · rw [htrace, List.mem_append] at ha
      exact ha.elim (hnone a) (hnew a)
    · obtain h | ⟨x, h⟩ := s.advance.effect_run i <;> rw [h]
      · simp [hrun]
      · simp
  · exact State.faultIsHalt_of_none (fun a ha => hnone a (by simpa [unknownInstruction] using ha))
      (by simp [unknownInstruction, hrun])

end Sys2Proof.Machine

open Sys2Proof Sys2Proof.Machine Sys2Proof.Claims

/-- Settles O56: a state that steps has not halted, so it has no AddressFault on record; only an
instruction step makes one, and it halts the core. -/
theorem stepKeepsFaultExactlyWhenHalted : Obligations.StepKeepsFaultExactlyWhenHalted := by
  intro s t hs h
  obtain ⟨hlive, -⟩ := step_cases h
  have hnone : ∀ a, Report.addressFault a ∉ s.trace := fun a ha => hlive _ (hs.1 ⟨a, ha⟩)
  obtain ⟨l, hturn⟩ := step_outcome h
  obtain ⟨hr, h⟩ | rfl | rfl | rfl | ⟨held, rfl⟩ | ⟨kx, b, -, rfl⟩ := hturn
  · exact State.instrStep_faultIsHalt (s := { s with schedule := l }) hnone hr h
  · exact State.faultIsHalt_of_none hnone (hlive _)
  · exact State.faultIsHalt_of_none hnone (hlive _)
  · exact State.faultIsHalt_of_none hnone (by simp)
  · exact State.faultIsHalt_of_none hnone (hlive _)
  · exact State.faultIsHalt_of_none hnone (by simp)

end

section

namespace Sys2Proof.Machine

/-! ## Which fetches exist (20_memory.md R48) -/

theorem State.fetchFault_eq_none {s : State} (h : s.cfg.addrPolicy = .fault → s.pc.toNat ≤ 0x0FFE) :
    s.fetchFault = none :=
  List.find?_eq_none.2 fun a ha => by
    rw [span_inRange _ _ _ (fun hp => by have := h hp; unfold memSize; omega) a ha]
    exact Bool.false_ne_true

/-- A fetch above `0x0FFE` under policy fault misses `pc`, or `0x1000` when `pc` is `0x0FFF`. -/
theorem State.fetchFault_eq_some {s : State} (hp : s.cfg.addrPolicy = .fault)
    (h : 0x0FFE < s.pc.toNat) :
    s.fetchFault = some (if 0x1000 ≤ s.pc.toNat then s.pc else 0x1000) := by
  rw [State.fetchFault, hp]
  exact firstOutOfRange_span s.pc 2 (by decide) (by decide) (by unfold memSize; omega)

theorem State.pc_le_of_fetch {s : State} (h : s.fetchFault = none)
    (hp : s.cfg.addrPolicy = .fault) : s.pc.toNat ≤ 0x0FFE := by
  by_contra hpc
  rw [State.fetchFault_eq_some hp (by omega)] at h
  cases h

/-! ## The bound on `pc` (10_state.md R15) -/

theorem State.skipIf_pc_le (s : State) (c : Bool) : (s.skipIf c).pc.toNat ≤ s.pc.toNat + 2 := by
  cases c
  · exact Nat.le_add_right _ _
  · exact (BitVec.toNat_add _ _).trans_le (Nat.mod_le _ _)

/-- The `pc` an effect leaves, entered with `pc` and the stack entries at most `0x1000`: highest is
the target of `JP V0,addr`, `0x0FFF + 0xFF`. -/
theorem State.effect_pc_le {s : State} (i : Instr) (hpc : s.pc.toNat ≤ 0x1000)
    (hstack : ∀ k : Fin 16, (s.stack[k]).toNat ≤ 0x1000) : (s.effect i).pc.toNat ≤ 0x10FE := by
  have skip (t : State) (c : Bool) (h : t.pc = s.pc) : (t.skipIf c).pc.toNat ≤ 0x10FE := by
    have := t.skipIf_pc_le c
    rw [h] at this
    omega
  cases i with
  | ret =>
    obtain ⟨hlive, h⟩ | ⟨_, h⟩ := s.returnFrom_cases <;> rw [effect, h]
    · exact (hstack ⟨s.sp.val - 1, by omega⟩).trans (by decide)
    · exact hpc.trans (by decide)
  | call nnn =>
    have := nnn.isLt
    obtain ⟨_, h⟩ | ⟨_, h⟩ := s.callTo_cases (zextAddr nnn) <;> rw [effect, h]
    · rw [zextAddr_toNat]
      omega
    · exact hpc.trans (by decide)
  | jp nnn =>
    have := nnn.isLt
    rw [effect, jumpTo_pc, zextAddr_toNat]
    omega
  | jpV0 nnn =>
    have := nnn.isLt
    have := (s.reg 0).isLt
    rw [effect, jumpTo_pc, offsetTarget_toNat]
    omega
  | seByte x kk | sneByte x kk => exact skip s _ rfl
  | seReg x y n | sneReg x y n => exact skip s _ rfl
  | skp x | sknp x => exact skip _ _ ((s.pressed_frame _).pc (by simp))
  | _ =>
    rw [(s.effect_frame _).pc (by simp [effectParts, destParts])]
    exact hpc.trans (by decide)

/-- The stack an effect leaves, entered with `pc` and the stack entries at most `0x1000`: a call
pushes `pc`, and nothing else writes an entry. -/
theorem State.effect_stack_le {s : State} (i : Instr) (hpc : s.pc.toNat ≤ 0x1000)
    (hstack : ∀ k : Fin 16, (s.stack[k]).toNat ≤ 0x1000) (k : Fin 16) :
    ((s.effect i).stack[k]).toNat ≤ 0x1000 := by
  cases i with
  | ret =>
    rw [effect, returnFrom_stack]
    exact hstack k
  | call nnn =>
    by_cases hroom : s.sp.val < 16
    · rw [effect, State.callTo_stack_getElem hroom]
      split
      · exact hpc
      · exact hstack k
    · rw [effect, State.callTo_of_full (by omega)]
      exact hstack k
  | _ =>
    rw [((s.effect_frame _).stack (by simp [effectParts, destParts])).2]
    exact hstack k

/-- A fetch under policy fault leaves the advanced `pc` at most `0x1000`. -/
theorem State.advance_pc_le {s : State} (hf : s.fetchFault = none)
    (hp : s.cfg.addrPolicy = .fault) : s.advance.pc.toNat ≤ 0x1000 := by
  have := State.pc_le_of_fetch hf hp
  rw [State.advance_pc, BitVec.toNat_add]
  exact (Nat.mod_le _ _).trans (by simpa using this)

/-- An instruction step keeps the bound: what it executes it has fetched. -/
theorem State.instrStep_pcBounded {s t : State} (hs : s.pcBounded) (h : s.instrStep = .next t) :
    t.pcBounded := by
  obtain ⟨a, -, rfl⟩ | ⟨hf, ho⟩ := State.instrStep_outcome h
  · exact hs
  · have hadv (hp : s.cfg.addrPolicy = .fault) : s.advance.pc.toNat ≤ 0x10FE :=
      (State.advance_pc_le hf hp).trans (by decide)
    obtain ⟨a, -, rfl⟩ | ⟨i, rfl⟩ | rfl := ho
    · exact fun hp => ⟨hadv hp, (hs hp).2⟩
    · intro hp
      rw [(s.advance.effect_frame i).cfg] at hp
      exact ⟨State.effect_pc_le i (State.advance_pc_le hf hp) (hs hp).2,
        State.effect_stack_le i (State.advance_pc_le hf hp) (hs hp).2⟩
    · exact fun hp => ⟨hadv hp, (hs hp).2⟩

end Sys2Proof.Machine

open Sys2Proof Sys2Proof.Machine Sys2Proof.Claims

/-- Settles O57: only an instruction step writes `pc` or the stack, from a `pc` that it could fetch
at. -/
theorem stepKeepsPcBounded : Obligations.StepKeepsPcBounded := by
  intro s t hs h
  refine step_keeps State.pcBounded (fun _ _ h => h)
    (fun _ _ hs _ h => State.instrStep_pcBounded hs h) (fun _ h => h) (fun _ h => h)
    (fun _ _ h => h) (fun s k hs => ?_) hs h
  obtain ⟨kx, -, h⟩ | ⟨-, h⟩ := s.keyPress_cases k <;> rw [h] <;> exact hs

end

section

namespace Sys2Proof.Machine

/-! ## Every instruction and every live turn completes -/

theorem State.accessing_completes (s : State) (as : List Word) (t : State) :
    ∃ u, s.accessing as t = .next u := by
  unfold State.accessing
  split <;> exact ⟨_, rfl⟩

theorem exec_completes (i : Instr) (s : State) : ∃ t, exec i s = .next t := by
  rw [exec_eq_accessing]
  exact s.accessing_completes _ _

theorem State.instrStep_completes (s : State) : ∃ t, s.instrStep = .next t := by
  cases hf : s.fetchFault with
  | some a => exact ⟨_, State.instrStep_of_fault hf⟩
  | none =>
    cases hd : decode s.fetchWord with
    | ok i =>
      rw [State.instrStep_of_decoded hf hd]
      exact exec_completes i _
    | error e => exact ⟨_, State.instrStep_of_unknown hf hd⟩

theorem State.coreTurn_completes {s : State} (h : ∀ r, s.run ≠ .halted r) :
    ∃ t, s.coreTurn = .next t := by
  cases hr : s.run with
  | running =>
    rw [State.coreTurn_of_running hr]
    exact s.instrStep_completes
  | awaitingKey kx => exact ⟨s, State.coreTurn_of_awaiting hr⟩
  | halted r => exact absurd hr (h r)

/-- A core that is not halted is not stuck, whatever the turn. -/
theorem step_completes {s : State} (h : ∀ r, s.run ≠ .halted r) : ∃ t, step s = .next t := by
  cases hs : s.schedule with
  | nil =>
    rw [step_of_nil h hs]
    exact State.coreTurn_completes h
  | cons x xs =>
    rw [step_of_cons h hs]
    cases x with
    | core => exact State.coreTurn_completes (s := { s with schedule := xs }) h
    | tick | keyPress k | quit | heldKeys held => exact ⟨_, rfl⟩

/-- The core's turn, scheduled or past the end of the schedule. -/
theorem step_of_coreMoves {s : State} {rest : List Turn} (h : Claims.coreMoves s rest)
    (hr : ∀ r, s.run ≠ .halted r) : step s = ({ s with schedule := rest } : State).coreTurn := by
  obtain hs | ⟨hs, rfl⟩ := h
  · exact step_of_cons hr hs
  · rw [step_of_nil hr hs, ← hs]

/-- The core's turn when Running. -/
theorem step_of_coreMoves_running {s : State} {rest : List Turn} (h : Claims.coreMoves s rest)
    (hr : s.run = .running) : step s = ({ s with schedule := rest } : State).instrStep := by
  rw [step_of_coreMoves h (by simp [hr])]
  exact State.coreTurn_of_running hr

theorem State.advance_frame (s : State) : Frame [] [.pc] s s.advance :=
  s.jumpTo_frame (s.pc + 2)

/-! ## The placed word -/

/-- A 16-bit number is the word of its two bytes. -/
theorem wordOfBytes_div_mod {w : Nat} (h : w < 65536) :
    wordOfBytes (BitVec.ofNat 8 (w / 256)) (BitVec.ofNat 8 w) = BitVec.ofNat 16 w := by
  apply BitVec.eq_of_toNat_eq
  rw [wordOfBytes_toNat]
  simp only [BitVec.toNat_ofNat]
  omega

/-- A fetch exists once the state is made ready for one. -/
theorem State.readyToFetch_fetchFault (s : State) : s.readyToFetch.fetchFault = none := by
  by_cases h : s.fetchFault = none
  · have hpc : s.readyToFetch.pc = s.pc := by simp [State.readyToFetch, h]
    rw [State.fetchFault, State.fetchSpan, hpc]
    exact h
  · have hpc : s.readyToFetch.pc = 0x200 := by
      simp [State.readyToFetch, Option.isSome_iff_ne_none, h]
    exact State.fetchFault_eq_none fun _ => by rw [hpc]; decide

theorem State.readyToFetch_pc {s : State} (h : s.fetchFault = none) : s.readyToFetch.pc = s.pc := by
  simp [State.readyToFetch, h]

/-- Making ready writes `pc` and the run state, apart from the schedule. -/
theorem State.readyToFetch_frame (s : State) :
    Frame [] [.pc, .run] { s with schedule := coreFirst s.schedule } s.readyToFetch := by
  constructor <;> simp [State.readyToFetch, State.reg, State.pixel]

theorem State.withFetchWord_eq (s : State) {w : Nat} (h : w < 65536) :
    s.withFetchWord 16 w =
      s.readyToFetch.writeBytes s.readyToFetch.pc [BitVec.ofNat 8 (w / 256), BitVec.ofNat 8 w] := by
  rw [State.withFetchWord, State.placeBytes, tableWordBytes, Nat.mod_eq_of_lt (by simpa using h)]

/-- Placing a word writes memory, once the state is made ready. -/
theorem State.withFetchWord_frame (s : State) {w : Nat} (h : w < 65536) :
    Frame [] [.memory] s.readyToFetch (s.withFetchWord 16 w) := by
  rw [s.withFetchWord_eq h]
  exact State.writeBytes_frame _ _ _

theorem State.withFetchWord_pc (s : State) {w : Nat} (h : w < 65536) :
    (s.withFetchWord 16 w).pc = s.readyToFetch.pc :=
  (s.withFetchWord_frame h).pc (by simp)

/-- The placed word is the one fetched. -/
theorem State.withFetchWord_fetchWord (s : State) {w : Nat} (h : w < 65536) :
    (s.withFetchWord 16 w).fetchWord = BitVec.ofNat 16 w := by
  have hread := s.readyToFetch.writeBytes_read s.readyToFetch.pc
    [BitVec.ofNat 8 (w / 256), BitVec.ofNat 8 w] (by simp [memSize])
  rw [← s.withFetchWord_eq h] at hread
  have hhi : (s.withFetchWord 16 w).readByte s.readyToFetch.pc = BitVec.ofNat 8 (w / 256) := by
    simpa [State.readByte] using hread 0 (by simp)
  have hlo : (s.withFetchWord 16 w).readByte (s.readyToFetch.pc + 1) = BitVec.ofNat 8 w :=
    hread 1 (by simp)
  rw [State.fetchWord, s.withFetchWord_pc h, hhi, hlo, wordOfBytes_div_mod h]

theorem State.withFetchWord_fetchFault (s : State) {w : Nat} (h : w < 65536) :
    (s.withFetchWord 16 w).fetchFault = none := by
  rw [State.fetchFault, State.fetchSpan, s.withFetchWord_pc h, (s.withFetchWord_frame h).cfg]
  exact s.readyToFetch_fetchFault

/-- Placing a word leaves every cell but the two it is fetched from as it was. -/
theorem State.withFetchWord_read (s : State) {w a : Nat} (h : w < 65536)
    (hhi : a ≠ cellOf (s.withFetchWord 16 w).pc)
    (hlo : a ≠ cellOf ((s.withFetchWord 16 w).pc + 1)) :
    (s.withFetchWord 16 w).mem.read a = s.mem.read a := by
  rw [s.withFetchWord_pc h] at hhi hlo
  rw [s.withFetchWord_eq h]
  refine State.writeBytes_read_of_not_mem _ _ _ _ fun k hk => ?_
  match k, hk with
  | 0, _ => simpa using hhi.symm
  | 1, _ => exact hlo.symm

/-- Two states in a frame stay in it when both are given one schedule. -/
theorem Frame.withSchedule {s t : State} {regs : List Reg} {parts : List Part}
    (h : Frame regs parts s t) (l : List Turn) :
    Frame regs parts { s with schedule := l } { t with schedule := l } :=
  { h with schedule := rfl }

/-- The schedule of a state made ready gives the core the next turn. -/
theorem coreMoves_coreFirst (s : State) (l : List Turn) (h : s.schedule = coreFirst l) :
    ∃ rest, Claims.coreMoves s rest := by
  match l with
  | [] => exact ⟨[], .inr ⟨h, rfl⟩⟩
  | .core :: ts => exact ⟨ts, .inl h⟩
  | .tick :: ts | .keyPress _ :: ts | .quit :: ts | .heldKeys _ :: ts => exact ⟨_, .inl h⟩

end Sys2Proof.Machine

open Sys2Proof Sys2Proof.Machine Sys2Proof.Claims

/-- Settles O51: an instruction answers its effect or the AddressFault's state. -/
theorem everyInstructionCompletes : Obligations.EveryInstructionCompletes :=
  exec_completes

/-- Settles O50: a halted core is stuck by definition, and no other state is. -/
theorem stuckExactlyWhenHalted : Obligations.StuckExactlyWhenHalted := by
  intro s
  by_cases hr : ∃ r, s.run = .halted r
  · obtain ⟨r, hr⟩ := hr
    rw [step_of_halted hr, hr]
    simp
  · have hlive : ∀ r, s.run ≠ .halted r := fun r h => hr ⟨r, h⟩
    obtain ⟨t, ht⟩ := step_completes hlive
    rw [ht]
    exact ⟨fun r => iff_of_false (hlive r) nofun, nofun⟩

/-- Settles O6: the fetch exists, so the turn executes what it decodes. -/
theorem stepRunsTheDecodedInstruction : Obligations.StepRunsTheDecodedInstruction := by
  intro s i rest hmoves hr hpc hd
  rw [step_of_coreMoves_running hmoves hr]
  exact State.instrStep_of_decoded (s := { s with schedule := rest })
    (State.fetchFault_eq_none hpc) hd

/-- Settles O8: the fetch exists, so the turn advances `pc` and reports the word. -/
theorem unknownWordIsAReportedNoOp : Obligations.UnknownWordIsAReportedNoOp := by
  intro s rest hmoves hr hpc hd
  let u : State := { s with schedule := rest }
  refine ⟨u.advance.unknownInstruction u.fetchWord, ?_, rfl, hr, rfl,
    u.advance_frame.seq (u.advance.report_frame _)⟩
  rw [step_of_coreMoves_running hmoves hr]
  exact State.instrStep_of_unknown (s := u) (State.fetchFault_eq_none hpc) hd

/-- Settles O9: the first address of the fetch span that does not exist is reported. -/
theorem fetchOutOfRangeHalts : Obligations.FetchOutOfRangeHalts := by
  intro s rest hmoves hr hp hpc
  rw [step_of_coreMoves_running hmoves hr]
  exact State.instrStep_of_fault (s := { s with schedule := rest })
    (State.fetchFault_eq_some hp hpc)

/-- Settles O10: the state made ready can fetch and has the core's turn next; the two bytes stored
at its `pc` are the word, and change no other cell. -/
theorem placedWordIsRunNext : Obligations.PlacedWordIsRunNext := by
  intro s w hw
  have hschedule : (s.withFetchWord 16 w).schedule = coreFirst s.schedule :=
    (s.withFetchWord_frame hw).schedule
  have hrun : (s.withFetchWord 16 w).run = .running := (s.withFetchWord_frame hw).run (by simp)
  obtain ⟨rest, hmoves⟩ := coreMoves_coreFirst _ _ hschedule
  refine ⟨{ s.withFetchWord 16 w with schedule := rest }, ?step, s.withFetchWord_fetchWord hw, hrun,
    fun hnone => (s.withFetchWord_pc hw).trans (State.readyToFetch_pc hnone),
    fun a => s.withFetchWord_read hw, ?frame⟩
  case step =>
    rw [step_of_coreMoves_running hmoves hrun, State.instrStep]
    have hfault : ({ s.withFetchWord 16 w with schedule := rest } : State).fetchFault = none :=
      s.withFetchWord_fetchFault hw
    have hfetch := s.withFetchWord_fetchWord hw
    rw [hfault, ← hfetch]
    rfl
  case frame =>
    exact ((s.readyToFetch_frame.seq (s.withFetchWord_frame hw)).withSchedule rest).mono (by simp)
      (by simp)

end

section

namespace Sys2Proof.Machine

/-! ## Returns -/

theorem State.returnFrom_pc {s : State} {k : Fin 16} (h : s.sp.val = k.val + 1) :
    s.returnFrom.pc = s.stack[k] := by
  rw [State.returnFrom_of_live (by omega)]
  simp [h]

theorem State.returnFrom_sp {s : State} (h : 0 < s.sp.val) :
    s.returnFrom.sp.val = s.sp.val - 1 := by
  rw [State.returnFrom_of_live h]

theorem exec_ret (s : State) : exec .ret s = .next s.returnFrom := rfl

/-! ## Nested calls -/

open Claims

theorem callEach_cons (a : Addr) (as : List Addr) (s : State) :
    callEach (a :: as) s = callEach as (s.callTo (zextAddr a)) := by
  rw [callEach, exec_call]

/-- One more return at the end. -/
theorem returnTimes_succ_last {k : Nat} {t u : State} (h : returnTimes k t = .next u) :
    returnTimes (k + 1) t = .next u.returnFrom := by
  induction k generalizing t with
  | zero =>
    cases h
    rfl
  | succ k ih =>
    rw [returnTimes, exec_ret] at h ⊢
    exact ih h

/-- The calls and returns between a call and its return leave the entry it pushed. -/
theorem calls_then_returns (as : List Addr) (s : State) (h : s.sp.val + as.length ≤ 16) :
    ∃ t u, callEach as s = .next t ∧ t.sp.val = s.sp.val + as.length ∧ t.trace = s.trace ∧
      returnTimes as.length t = .next u ∧ u.pc = s.pc ∧ u.sp = s.sp ∧ u.trace = s.trace ∧
      ∀ j : Fin 16, j.val < s.sp.val → u.stack[j] = s.stack[j] := by
  induction as generalizing s with
  | nil => exact ⟨s, s, rfl, rfl, rfl, rfl, rfl, rfl, rfl, fun _ _ => rfl⟩
  | cons a as ih =>
    rw [List.length_cons] at h
    have hroom : s.sp.val < 16 := by omega
    have hsp := State.callTo_sp hroom (zextAddr a)
    have htrace := (State.callTo_frame hroom (zextAddr a)).trace (by simp)
    obtain ⟨t, u, hcalls, htsp, httrace, hrets, -, husp, hutrace, hustack⟩ :=
      ih (s.callTo (zextAddr a)) (by omega)
    have huval : u.sp.val = s.sp.val + 1 := by rw [husp, hsp]
    have hstack (j : Fin 16) (hj : j.val ≤ s.sp.val) :
        u.stack[j] = if s.sp.val = j.val then s.pc else s.stack[j] := by
      rw [hustack j (by omega), State.callTo_stack_getElem hroom]
    refine ⟨t, u.returnFrom, (callEach_cons a as s).trans hcalls, ?_, httrace.trans htrace,
      returnTimes_succ_last hrets, ?_, ?_, ?_, fun j hj => ?_⟩
    · rw [htsp, hsp, List.length_cons]
      omega
    · rw [State.returnFrom_pc (k := ⟨s.sp.val, hroom⟩) huval, hstack _ le_rfl, if_pos rfl]
    · exact Fin.ext (by rw [State.returnFrom_sp (by omega), huval, Nat.add_sub_cancel])
    · rw [(State.returnFrom_frame_of_live (by omega)).trace (by simp), hutrace, htrace]
    · rw [State.returnFrom_stack, hstack j hj.le, if_neg (by omega)]

/-! ## Skips -/

theorem State.skipIf_pc (s : State) (c : Bool) :
    (s.skipIf c).pc = if c = true then s.pc + 2 else s.pc := by
  rw [State.skipIf_eq]

/-- A skip on a decided condition. -/
theorem State.skipIf_decide_pc (s : State) (p : Prop) [Decidable p] :
    (s.skipIf (decide p)).pc = if p then s.pc + 2 else s.pc := by
  rw [State.skipIf_pc]
  exact if_congr decide_eq_true_iff rfl rfl

/-- A skip on the negation of a condition. -/
theorem State.skipIf_not_pc (s : State) (c : Bool) :
    (s.skipIf (!c)).pc = if c = true then s.pc else s.pc + 2 := by
  cases c <;> rfl

/-- A key test of a value that names a key reads that key and changes nothing. -/
theorem State.pressed_of_key (s : State) {b : Byte} {k : Key} (h : b.toNat = k.val) :
    s.pressed b = (s.keyDown k, s) := by
  obtain ⟨_, hp⟩ | ⟨hge, _⟩ := s.pressed_cases b
  · rw [hp]
    simp [h]
  · omega

/-- A key test of 16 or more takes a free answer and uses up a draw. -/
theorem State.pressed_of_ge (s : State) {b : Byte} (h : 16 ≤ b.toNat) :
    s.pressed b = (Config.keyOor s.draws b, { s with draws := s.draws + 1 }) := by
  obtain ⟨hlt, _⟩ | ⟨_, hp⟩ := s.pressed_cases b
  · omega
  · exact hp

theorem exec_skp (x : Reg) (s : State) :
    exec (.skp x) s = .next ((s.pressed (s.reg x)).2.skipIf (s.pressed (s.reg x)).1) := rfl

theorem exec_sknp (x : Reg) (s : State) :
    exec (.sknp x) s = .next ((s.pressed (s.reg x)).2.skipIf (!(s.pressed (s.reg x)).1)) := rfl

end Sys2Proof.Machine

open Sys2Proof Sys2Proof.Machine Sys2Proof.Claims

/-- Settles O12: a return pops the entry below `sp`, or reports with none live. -/
theorem retPopsOrReportsUnderflow : Obligations.RetPopsOrReportsUnderflow := by
  intro s
  refine ⟨fun k hk => ?live, fun hempty => ?empty⟩
  case live =>
    have hlive : 0 < s.sp.val := by omega
    refine ⟨s.returnFrom, exec_ret s, State.returnFrom_pc hk, ?_, s.returnFrom_stack,
      State.returnFrom_frame_of_live hlive⟩
    rw [State.returnFrom_sp hlive, hk, Nat.add_sub_cancel]
  case empty =>
    refine ⟨s.report .stackUnderflow, ?_, rfl, s.report_frame _⟩
    rw [exec_ret, State.returnFrom_of_empty hempty]

/-- Settles O13: the next state is `s` with the record. -/
theorem sysIsALoggedNoOp : Obligations.SysIsALoggedNoOp :=
  fun nnn s => ⟨s.report (.sysIgnored nnn), rfl, s.report_trace _, s.report_frame _⟩

/-- Settles O16: by induction on the list of targets, each call adding its return at the end. -/
theorem nestedCallsReturnInOrder : Obligations.NestedCallsReturnInOrder :=
  calls_then_returns

/-- Settles O19: each next state is `s` with a skip on its comparison. -/
theorem skipsAddTwoWhenTheyHold : Obligations.SkipsAddTwoWhenTheyHold := by
  intro x y kk n s
  exact ⟨⟨_, rfl, s.skipIf_frame _, s.skipIf_decide_pc _⟩,
    ⟨_, rfl, s.skipIf_frame _, (s.skipIf_not_pc _).trans (if_congr beq_iff_eq rfl rfl)⟩,
    ⟨_, rfl, s.skipIf_frame _, s.skipIf_decide_pc _⟩,
    ⟨_, rfl, s.skipIf_frame _, (s.skipIf_not_pc _).trans (if_congr beq_iff_eq rfl rfl)⟩⟩

/-- Settles O20: the key test reads the key and leaves the state for the skip. -/
theorem keySkipsReadTheHeldKey : Obligations.KeySkipsReadTheHeldKey := by
  intro x k s hk
  have hp := s.pressed_of_key hk
  refine ⟨⟨s.skipIf (s.keyDown k), ?_, s.skipIf_frame _, s.skipIf_pc _⟩,
    ⟨s.skipIf (!s.keyDown k), ?_, s.skipIf_frame _, s.skipIf_not_pc _⟩⟩
  · rw [exec_skp, hp]
  · rw [exec_sknp, hp]

/-- Settles O21: both tests take one free answer from the same draw, and skip on it and on its
negation. -/
theorem keySkipsOutOfRangeComplement : Obligations.KeySkipsOutOfRangeComplement := by
  intro x s h
  have hp := s.pressed_of_ge h
  have hskp : s.effect (.skp x) =
      ({ s with draws := s.draws + 1 } : State).skipIf (Config.keyOor s.draws (s.reg x)) := by
    rw [State.effect, hp]
  have hsknp : s.effect (.sknp x) =
      ({ s with draws := s.draws + 1 } : State).skipIf (!Config.keyOor s.draws (s.reg x)) := by
    rw [State.effect, hp]
  refine ⟨s.effect (.skp x), s.effect (.sknp x), rfl, rfl, ?_, ?_, ?_,
    s.effect_frame (.skp x), s.effect_frame (.sknp x)⟩
  · rw [hskp, hsknp]
    cases Config.keyOor s.draws (s.reg x)
    · exact .inr ⟨rfl, rfl⟩
    · exact .inl ⟨rfl, rfl⟩
  · rw [hskp]
    exact (State.skipIf_frame _ _).draws (by simp)
  · rw [hsknp]
    exact (State.skipIf_frame _ _).draws (by simp)

end

section

namespace Sys2Proof.Machine

open Claims

/-! ## Ticks -/

theorem State.tick_frame (s : State) : Frame [] [.delayTimer, .soundTimer, .display] s s.tick := by
  constructor <;> simp [State.reg, State.pixel]

/-- Ticks count both timers down and present; they change nothing else. -/
theorem ticks_eq (n : Nat) (s : State) :
    ticks n s = { s with DT := (ticks n s).DT, ST := (ticks n s).ST,
                         display := s.display ++ List.replicate n .present } := by
  induction n generalizing s with
  | zero => simp [ticks]
  | succ n ih =>
    rw [ticks, ih]
    simp [State.tick, State.present, State.issue, List.replicate_succ]

@[simp] theorem ticks_V (n : Nat) (s : State) : (ticks n s).V = s.V := by rw [ticks_eq]
@[simp] theorem ticks_I (n : Nat) (s : State) : (ticks n s).I = s.I := by rw [ticks_eq]
@[simp] theorem ticks_pc (n : Nat) (s : State) : (ticks n s).pc = s.pc := by rw [ticks_eq]
@[simp] theorem ticks_sp (n : Nat) (s : State) : (ticks n s).sp = s.sp := by rw [ticks_eq]
@[simp] theorem ticks_stack (n : Nat) (s : State) : (ticks n s).stack = s.stack := by rw [ticks_eq]
@[simp] theorem ticks_mem (n : Nat) (s : State) : (ticks n s).mem = s.mem := by rw [ticks_eq]
@[simp] theorem ticks_pix (n : Nat) (s : State) : (ticks n s).pix = s.pix := by rw [ticks_eq]
@[simp] theorem ticks_run (n : Nat) (s : State) : (ticks n s).run = s.run := by rw [ticks_eq]
@[simp] theorem ticks_trace (n : Nat) (s : State) : (ticks n s).trace = s.trace := by rw [ticks_eq]
@[simp] theorem ticks_display (n : Nat) (s : State) : 
    (ticks n s).display = s.display ++ List.replicate n .present := by rw [ticks_eq]
@[simp] theorem ticks_keys (n : Nat) (s : State) : (ticks n s).keys = s.keys := by rw [ticks_eq]
@[simp] theorem ticks_draws (n : Nat) (s : State) : (ticks n s).draws = s.draws := by rw [ticks_eq]
@[simp] theorem ticks_cfg (n : Nat) (s : State) : (ticks n s).cfg = s.cfg := by rw [ticks_eq]

theorem ticks_DT_toNat (n : Nat) (s : State) : (ticks n s).DT.toNat = s.DT.toNat - n := by
  induction n generalizing s with
  | zero => rfl
  | succ n ih =>
    rw [ticks, ih, State.tick_DT, countDown_toNat]
    omega

theorem ticks_ST_toNat (n : Nat) (s : State) : (ticks n s).ST.toNat = s.ST.toNat - n := by
  induction n generalizing s with
  | zero => rfl
  | succ n ih =>
    rw [ticks, ih, State.tick_ST, countDown_toNat]
    omega

theorem State.soundActive_iff (s : State) : s.soundActive = true ↔ 0 < s.ST.toNat := by
  rw [State.soundActive, bne_iff_ne, Nat.pos_iff_ne_zero, ne_eq, ne_eq, ← BitVec.toNat_inj]
  rfl

/-- A key press ends a wait: the latched register takes the symbol (60_exceptions.md R232). -/
theorem State.keyPress_of_awaiting {s : State} {kx : Reg} (h : s.run = .awaitingKey kx) (k : Key) :
    s.keyPress k = { s.setReg kx (BitVec.ofNat 8 k.val) with run := .running } := by
  rw [State.keyPress, h]

theorem step_keyPress_of_awaiting {s : State} {kx : Reg} {k : Key} {rest : List Turn}
    (h : s.run = .awaitingKey kx) (hs : s.schedule = .keyPress k :: rest) :
    step s =
      .next { s.setReg kx (BitVec.ofNat 8 k.val) with run := .running, schedule := rest } :=
  (step_of_cons (by simp [h]) hs).trans
    (congrArg _ (State.keyPress_of_awaiting (s := { s with schedule := rest }) h k))

/-! ## A run through scheduled ticks -/

/-- A run whose first step answers a next state goes on from there. -/
theorem run_succ_of_step {M : Host.Core} {s t : M.State} (k : Nat) (h : M.step s = .next t) :
    M.run (k + 1) s = M.run k t := by
  rw [Host.Core.run, h]

/-- Ticks do not look at the schedule. -/
theorem ticks_withSchedule (n : Nat) (s : State) (l ts : List Turn) :
    ({ ticks n { s with schedule := l } with schedule := ts } : State) =
      { ticks n s with schedule := ts } := by
  induction n generalizing s with
  | zero => rfl
  | succ n ih => exact ih s.tick

/-- Scheduled ticks of a core that is not halted are used up one by one. -/
theorem core_run_ticks (n k : Nat) {s : State} {ts : List Turn}
    (h : ∀ r, s.run ≠ .halted r) (hs : s.schedule = List.replicate n .tick ++ ts) :
    core.run (n + k) s = core.run k ({ ticks n s with schedule := ts } : State) := by
  induction n generalizing s with
  | zero =>
    have hschedule : s.schedule = ts := hs
    rw [← hschedule, Nat.zero_add]
    rfl
  | succ n ih =>
    have hstep := step_of_cons h (hs.trans (by rw [List.replicate_succ, List.cons_append]))
    calc core.run (n + 1 + k) s
      _ = core.run (n + k + 1) s := by rw [Nat.add_right_comm]
      _ = core.run (n + k) (State.tick { s with schedule := List.replicate n .tick ++ ts }) :=
        run_succ_of_step (M := core) _ hstep
      _ = core.run k
          ({ ticks n (State.tick { s with schedule := List.replicate n .tick ++ ts }) with
            schedule := ts } : State) := ih h rfl
      _ = core.run k ({ ticks (n + 1) s with schedule := ts } : State) :=
        congrArg (core.run k) (ticks_withSchedule n s.tick _ ts)

end Sys2Proof.Machine

open Sys2Proof Sys2Proof.Machine Sys2Proof.Claims

/-- Settles O38: a core that waits idles. -/
theorem noInstructionRunsDuringAKeyWait : Obligations.NoInstructionRunsDuringAKeyWait := by
  intro s kx rest hmoves hr
  rw [step_of_coreMoves hmoves (by simp [hr])]
  exact State.coreTurn_of_awaiting hr

/-- Settles O46: the scheduled turn is a tick. -/
theorem tickCountsDownAndPresents : Obligations.TickCountsDownAndPresents := by
  intro s rest hlive hs
  exact ⟨({ s with schedule := rest } : State).tick, step_of_cons hlive hs, countDown_toNat _,
    countDown_toNat _, rfl, rfl, State.tick_frame _⟩

/-- Settles O47: by induction on the number of ticks. -/
theorem timersNeverUnderflow : Obligations.TimersNeverUnderflow := by
  intro n s
  refine ⟨ticks_DT_toNat n s, ticks_ST_toNat n s, ?_, ticks_display n s⟩
  rw [State.soundActive_iff, ticks_ST_toNat]
  omega

/-- Settles O48: the scheduled turn is a quit, and a halted core is stuck. -/
theorem quitHaltsAndWritesNothing : Obligations.QuitHaltsAndWritesNothing := by
  intro s rest hlive hs
  refine ⟨({ s with schedule := rest } : State).quit, step_of_cons hlive hs, rfl, rfl,
    fun u => ?_, ?_⟩
  · rw [step_of_halted (State.quit_run _)]
    simp
  · constructor <;> simp [State.reg, State.pixel]

/-- Settles O49: a running core drops the press, and the held keys are an input. -/
theorem undeliveredInputsChangeNothing : Obligations.UndeliveredInputsChangeNothing := by
  intro s k held rest
  refine ⟨fun hr hs => ?_, fun hlive hs => step_of_cons hlive hs⟩
  obtain ⟨kx, hwait, _⟩ | ⟨_, hpress⟩ := State.keyPress_cases { s with schedule := rest } k
  · exact absurd (hr.symm.trans hwait) (by simp)
  · rw [step_of_cons (by simp [hr]) hs, State.turn, hpress]

/-- Settles O37: the ticks are used up with the core still waiting, then the press writes the
latched register. -/
theorem keyWaitEndsWithThePressedSymbol : Obligations.KeyWaitEndsWithThePressedSymbol := by
  intro s kx n k rest hr hs
  have hlive : ∀ r, s.run ≠ .halted r := by simp [hr]
  have hrun : (ticks n s).run = .awaitingKey kx := by rw [ticks_run, hr]
  have hpress := step_keyPress_of_awaiting (s := { ticks n s with schedule := .keyPress k :: rest })
    hrun rfl
  refine ⟨_, (core_run_ticks n 1 hlive hs).trans (run_succ_of_step (M := core) 0 hpress), ?symbol,
    rfl, ticks_DT_toNat n s, ticks_ST_toNat n s, ticks_display n s, rfl, fun r h => ?others,
    ticks_pc n s, ticks_I n s, ticks_sp n s, ticks_stack n s, ticks_mem n s, ticks_pix n s,
    ticks_trace n s, ticks_keys n s, ticks_draws n s, ticks_cfg n s⟩
  case symbol =>
    have hk : (BitVec.ofNat 8 k.val).toNat = k.val := by
      rw [BitVec.toNat_ofNat]
      omega
    exact (congrArg BitVec.toNat ((ticks n s).setReg_reg_self kx _)).trans hk
  case others =>
    exact ((ticks n s).setReg_reg_of_ne _ h.symm).trans (State.reg_congr (ticks_V n s) r)

end

section

namespace Sys2Proof.Machine

/-! ## Logic operations (44_alu.md R142) -/

theorem State.writeLogic_of_kept {s : State} (h : s.cfg.logicClearsVF = false) (x : Reg)
    (b : Byte) : s.writeLogic x b = s.setReg x b := by
  rw [State.writeLogic, h]
  rfl

theorem State.writeLogic_reg_flag {s : State} (h : s.cfg.logicClearsVF = true) (x : Reg)
    (b : Byte) : (s.writeLogic x b).reg 15 = 0 := by
  rw [State.writeLogic_reg, if_pos ⟨h, flagReg_eq.symm⟩]

/-- The result stands unless the flag register is both destination and cleared. -/
theorem State.writeLogic_reg_dest {s : State} {x : Reg} (h : x ≠ 15 ∨ s.cfg.logicClearsVF = false)
    (b : Byte) : (s.writeLogic x b).reg x = b := by
  have hkept : ¬(s.cfg.logicClearsVF = true ∧ x = flagReg) := fun ⟨hc, hx⟩ =>
    h.elim (fun hne => hne hx) (fun hc' => by simp [hc] at hc')
  rw [State.writeLogic_reg, if_neg hkept, if_pos rfl]

/-- What a logic operation with result `r` does, under each setting of the quirk. -/
theorem State.writeLogic_spec (s : State) (x : Reg) (r : Byte) :
    (s.cfg.logicClearsVF = true →
      (s.writeLogic x r).reg 15 = 0 ∧ Frame [x, 15] [] s (s.writeLogic x r)) ∧
    (s.cfg.logicClearsVF = false → Frame [x] [] s (s.writeLogic x r)) ∧
    (x ≠ 15 ∨ s.cfg.logicClearsVF = false → (s.writeLogic x r).reg x = r) :=
  ⟨fun h => ⟨State.writeLogic_reg_flag h x r, s.writeLogic_frame x r⟩,
    fun h => State.writeLogic_of_kept h x r ▸ s.setReg_frame x r,
    fun h => State.writeLogic_reg_dest h r⟩

/-! ## Results and flags as numbers (44_alu.md R148 to R151) -/

theorem subFlag_difference_toNat (a b : Byte) :
    ((subFlag a b).1.toNat : Int) = ((a.toNat : Int) - b.toNat) % 256 := by
  have hb : b.toNat < 2 ^ 8 := b.isLt
  rw [subFlag, BitVec.toNat_ofNat]
  omega

theorem subFlag_noBorrow_toNat (a b : Byte) :
    (flagByte (subFlag a b).2).toNat = if b.toNat ≤ a.toNat then 1 else 0 := by
  rw [flagByte_toNat, subFlag]
  exact if_congr decide_eq_true_iff rfl rfl

/-- A bit of a byte as a flag. -/
theorem flagByte_getLsbD_toNat (b : Byte) (k : Nat) :
    (flagByte (b.getLsbD k)).toNat = b.toNat / 2 ^ k % 2 := by
  rw [flagByte_toNat, BitVec.getLsbD, Nat.testBit_eq_decide_div_mod_eq]
  split <;> simp_all

theorem shrFlag_bit_toNat (b : Byte) : (flagByte (shrFlag b).2).toNat = b.toNat % 2 := by
  rw [shrFlag, flagByte_getLsbD_toNat, pow_zero, Nat.div_one]

theorem shrFlag_result_toNat (b : Byte) : (shrFlag b).1.toNat = b.toNat / 2 := by
  have hb : b.toNat < 2 ^ 8 := b.isLt
  rw [shrFlag, BitVec.toNat_ofNat]
  omega

theorem shlFlag_bit_toNat (b : Byte) : (flagByte (shlFlag b).2).toNat = b.toNat / 128 := by
  have hb : b.toNat < 2 ^ 8 := b.isLt
  rw [shlFlag, flagByte_getLsbD_toNat]
  omega

theorem shlFlag_result_toNat (b : Byte) : (shlFlag b).1.toNat = b.toNat * 2 % 256 :=
  BitVec.toNat_ofNat _ 8

end Sys2Proof.Machine

open Sys2Proof Sys2Proof.Machine Sys2Proof.Claims

/-- Settles O24: the next state is `s` with `V[y]` written to `V[x]`. -/
theorem ldRegCopies : Obligations.LdRegCopies :=
  fun x y s => ⟨s.setReg x (s.reg y), rfl, s.setReg_reg_self x _, s.setReg_frame x _⟩

/-- Settles O25: the three operations write their result the same way, and each result is bit by
bit. -/
theorem logicOpsClearTheFlagByQuirk : Obligations.LogicOpsClearTheFlagByQuirk := by
  intro x y s i f hi
  have result (r : Byte) (hr : ∀ b, r.getLsbD b = f ((s.reg x).getLsbD b) ((s.reg y).getLsbD b))
      (hexec : exec i s = .next (s.writeLogic x r)) :
      ∃ t, exec i s = .next t ∧
        (s.cfg.logicClearsVF = true → t.reg 15 = 0 ∧ Frame [x, 15] [] s t) ∧
        (s.cfg.logicClearsVF = false → Frame [x] [] s t) ∧
        (x ≠ 15 ∨ s.cfg.logicClearsVF = false → ∀ b < 8,
          (t.reg x).getLsbD b = f ((s.reg x).getLsbD b) ((s.reg y).getLsbD b)) := by
    obtain ⟨hcleared, hkept, hdest⟩ := s.writeLogic_spec x r
    exact ⟨s.writeLogic x r, hexec, hcleared, hkept, fun h b _ => by rw [hdest h, hr]⟩
  obtain ⟨rfl, rfl⟩ | ⟨rfl, rfl⟩ | ⟨rfl, rfl⟩ := hi
  · exact result _ (fun _ => BitVec.getLsbD_or) rfl
  · exact result _ (fun _ => BitVec.getLsbD_and) rfl
  · exact result _ (fun _ => BitVec.getLsbD_xor) rfl

/-- Settles O27: both write the difference of minuend and subtrahend and its no-borrow. -/
theorem subtractionsSetNoBorrow : Obligations.SubtractionsSetNoBorrow := by
  intro x y s i a b hi
  have hexec : exec i s = .next (s.writeFlagged x (subFlag a b)) := by
    obtain ⟨rfl, rfl, rfl⟩ | ⟨rfl, rfl, rfl⟩ := hi <;> rfl
  refine ⟨s.writeFlagged x (subFlag a b), hexec, ?noBorrow, fun hx => ?difference,
    s.writeFlagged_frame x _⟩
  case noBorrow => rw [State.writeFlagged_reg_flag, subFlag_noBorrow_toNat]
  case difference => rw [State.writeFlagged_reg_dest s _ hx, subFlag_difference_toNat]

/-- Settles O28: each writes the shifted `V[y]` and the bit shifted out. -/
theorem shiftsTakeTheirSourceFromVy : Obligations.ShiftsTakeTheirSourceFromVy := by
  intro x y s
  refine ⟨⟨s.writeFlagged x (shrFlag (s.reg y)), rfl, ?_, fun hx => ?_, s.writeFlagged_frame x _⟩,
    ⟨s.writeFlagged x (shlFlag (s.reg y)), rfl, ?_, fun hx => ?_, s.writeFlagged_frame x _⟩⟩
  · rw [State.writeFlagged_reg_flag, shrFlag_bit_toNat]
  · rw [State.writeFlagged_reg_dest s _ hx, shrFlag_result_toNat]
  · rw [State.writeFlagged_reg_flag, shlFlag_bit_toNat]
  · rw [State.writeFlagged_reg_dest s _ hx, shlFlag_result_toNat]

/-- Settles O30: the next state is `s` with a draw used up and the masked byte written. -/
theorem rndMasksAFreeByte : Obligations.RndMasksAFreeByte := by
  intro x kk s
  refine ⟨s.effect (.rnd x kk), Config.drawByte s.draws, rfl, rfl, fun b _ => ?_, rfl,
    s.effect_frame (.rnd x kk)⟩
  have hreg : (s.effect (.rnd x kk)).reg x = Config.drawByte s.draws &&& kk :=
    s.drawByte.2.setReg_reg_self x _
  rw [hreg, BitVec.getLsbD_and]

end

section

namespace Sys2Proof.Machine

open Claims

/-! ## The suppress quirk cannot be seen (44_alu.md R141) -/

/-- A flagged write without the quirk: for `x` the flag register, the flag overwrites the result, so
leaving the result out changes nothing. -/
theorem State.writeFlagged_eq_setReg_setReg (s : State) (x : Reg) (r : Byte × Bool) :
    s.writeFlagged x r = (s.setReg x r.1).setReg flagReg (flagByte r.2) := by
  rw [State.writeFlagged]
  split
  · rename_i h
    obtain ⟨rfl, -⟩ := h
    simp [State.setReg]
  · rfl

theorem flipSuppress_writeFlagged (s : State) (x : Reg) (r : Byte × Bool) :
    (flipSuppress s).writeFlagged x r = flipSuppress (s.writeFlagged x r) := by
  rw [State.writeFlagged_eq_setReg_setReg, State.writeFlagged_eq_setReg_setReg]
  rfl

theorem flipSuppress_writeLogic (s : State) (x : Reg) (b : Byte) :
    (flipSuppress s).writeLogic x b = flipSuppress (s.writeLogic x b) := by
  rw [State.writeLogic, State.writeLogic, apply_ite flipSuppress]
  rfl

theorem flipSuppress_skipIf (s : State) (c : Bool) :
    (flipSuppress s).skipIf c = flipSuppress (s.skipIf c) := by
  cases c <;> rfl

theorem flipSuppress_callTo (s : State) (w : Word) :
    (flipSuppress s).callTo w = flipSuppress (s.callTo w) := by
  rw [State.callTo, State.callTo, apply_dite flipSuppress]
  rfl

theorem flipSuppress_returnFrom (s : State) :
    (flipSuppress s).returnFrom = flipSuppress s.returnFrom := by
  rw [State.returnFrom, State.returnFrom, apply_dite flipSuppress]
  rfl

theorem flipSuppress_pressed (s : State) (b : Byte) :
    (flipSuppress s).pressed b = ((s.pressed b).1, flipSuppress (s.pressed b).2) := by
  unfold State.pressed
  split <;> rfl

theorem flipSuppress_writeBytes (s : State) (a : Word) (bs : List Byte) :
    (flipSuppress s).writeBytes a bs = flipSuppress (s.writeBytes a bs) := by
  induction bs generalizing s a with
  | nil => rfl
  | cons b bs ih => exact ih (s.writeByte a b) (a + 1)

theorem flipSuppress_setRegsFrom (s : State) (k : Nat) (bs : List Byte) :
    (flipSuppress s).setRegsFrom k bs = flipSuppress (s.setRegsFrom k bs) := by
  induction bs generalizing s k with
  | nil => rfl
  | cons b bs ih =>
    rw [State.setRegsFrom, State.setRegsFrom, ← ih]
    split <;> rfl

theorem flipSuppress_xorPixel (s : State) (p : Point) :
    (flipSuppress s).xorPixel p = flipSuppress (s.xorPixel p) := by
  rw [State.xorPixel, State.xorPixel, apply_ite flipSuppress]
  rfl

theorem flipSuppress_drawSprite (s : State) (x y : Reg) (n : Nat) :
    (flipSuppress s).drawSprite x y n = flipSuppress (s.drawSprite x y n) := by
  rw [State.drawSprite, State.drawSprite, ← List.foldl_hom flipSuppress flipSuppress_xorPixel]
  rfl

theorem flipSuppress_accessing {s t u : State} {as : List Word} (h : s.accessing as t = .next u) :
    (flipSuppress s).accessing as (flipSuppress t) = .next (flipSuppress u) := by
  have hfirst : firstOutOfRange (flipSuppress s).cfg.addrPolicy as =
      firstOutOfRange s.cfg.addrPolicy as := rfl
  rw [State.accessing] at h ⊢
  rw [hfirst]
  cases hf : firstOutOfRange s.cfg.addrPolicy as with
  | none | some a =>
    rw [hf] at h
    cases h
    rfl

/-- An effect is the same under the other setting of the quirk, but for that setting. -/
theorem flipSuppress_effect (s : State) (i : Instr) :
    (flipSuppress s).effect i = flipSuppress (s.effect i) := by
  cases i with
  | ret => exact flipSuppress_returnFrom s
  | call nnn => exact flipSuppress_callTo s _
  | seByte x kk | sneByte x kk => exact flipSuppress_skipIf s _
  | seReg x y n | sneReg x y n => exact flipSuppress_skipIf s _
  | orReg x y | andReg x y | xorReg x y => exact flipSuppress_writeLogic s x _
  | addReg x y | subReg x y | shrReg x y | subnReg x y | shlReg x y =>
    exact flipSuppress_writeFlagged s x _
  | skp x | sknp x =>
    have hreg : (flipSuppress s).reg x = s.reg x := rfl
    rw [State.effect, hreg, flipSuppress_pressed]
    exact flipSuppress_skipIf _ _
  | drw x y n => exact flipSuppress_drawSprite s x y _
  | ldBcd x => exact flipSuppress_writeBytes s _ _
  | storeRegs x =>
    exact congrArg (fun t : State => { t with I := s.indexPast x }) (flipSuppress_writeBytes s _ _)
  | loadRegs x =>
    exact congrArg (fun t : State => { t with I := s.indexPast x }) (flipSuppress_setRegsFrom s _ _)
  | _ => rfl

end Sys2Proof.Machine

open Sys2Proof Sys2Proof.Machine Sys2Proof.Claims

/-- Settles O29: the accesses do not look at the quirk, and the effect commutes with flipping it. -/
theorem suppressQuirkIsUnobservable : Obligations.SuppressQuirkIsUnobservable := by
  intro i s t h
  rw [exec_eq_accessing] at h ⊢
  have haccesses : (flipSuppress s).accesses i = s.accesses i := by cases i <;> rfl
  rw [haccesses, flipSuppress_effect]
  exact flipSuppress_accessing h

end

section

namespace Sys2Proof.Machine

theorem glyphBase_toNat (b : Byte) : (glyphBase b).toNat = 5 * (b.toNat % 16) := by
  rw [glyphBase, BitVec.toNat_ofNat]
  omega

theorem State.indexPlus_toNat (s : State) (x : Reg) :
    (s.indexPlus x).toNat = (s.I.toNat + (s.reg x).toNat) % 65536 := by
  rw [State.indexPlus, BitVec.toNat_add, zextByte_toNat]

end Sys2Proof.Machine

open Sys2Proof Sys2Proof.Machine Sys2Proof.Claims

/-- Settles O35: each next state is `s` with the byte moved. -/
theorem timerTransfersMoveTheByte : Obligations.TimerTransfersMoveTheByte := by
  intro x s
  exact ⟨⟨s.setReg x s.DT, rfl, s.setReg_reg_self x _, s.setReg_frame x _⟩,
    ⟨s.effect (.ldDT x), rfl, rfl, s.effect_frame (.ldDT x)⟩,
    ⟨s.effect (.ldST x), rfl, rfl, bne_iff_ne, s.effect_frame (.ldST x)⟩⟩

/-- Settles O36: the next state is `s` with the run state suspended. -/
theorem ldKeySuspends : Obligations.LdKeySuspends :=
  fun x s => ⟨s.effect (.ldKey x), rfl, rfl, s.effect_frame (.ldKey x)⟩

/-- Settles O39: each next state is `s` with the number written to `I`. -/
theorem indexArithmetic : Obligations.IndexArithmetic := by
  intro x s
  exact ⟨⟨{ s with I := s.indexPlus x }, rfl, s.indexPlus_toNat x, s.withI_frame _⟩,
    ⟨{ s with I := glyphBase (s.reg x) }, rfl, glyphBase_toNat _, s.withI_frame _⟩⟩

end

section

namespace Sys2Proof.Machine

open Claims

/-! ## Accesses through `I`, in reach and out of it -/

/-- With the bytes from `I` up in reach, an instruction that accesses them has its effect. -/
theorem exec_of_inReach {s : State} {i : Instr} {n : Nat} (hi : s.accesses i = span s.I n)
    (h : inReach s n) : exec i s = .next (s.effect i) :=
  exec_of_inRange (hi ▸ span_inRange _ _ _ h)

/-- So the state it answers is its effect. -/
theorem eq_effect_of_inReach {s t : State} {i : Instr} {n : Nat} (hi : s.accesses i = span s.I n)
    (h : inReach s n) (hexec : exec i s = .next t) : s.effect i = t := by
  rw [exec_of_inReach hi h] at hexec
  injection hexec

/-- With those bytes leaving the memory under policy fault, it stops at the first missing one. -/
theorem exec_of_outOfReach {s : State} {i : Instr} {n : Nat} (hp : s.cfg.addrPolicy = .fault)
    (hi : s.accesses i = span s.I n) (hn : 0 < n) (hn' : n ≤ 16) (h : 0x1000 < s.I.toNat + n) :
    exec i s = .next (stoppedAt s (firstMissing s)) := by
  have hfirst : firstOutOfRange s.cfg.addrPolicy (s.accesses i) = some (firstMissing s) := by
    rw [hi, hp]
    exact firstOutOfRange_span s.I n hn hn' h
  rw [exec_eq_accessing, State.accessing, hfirst]
  rfl

theorem State.indexPast_toNat (s : State) (x : Reg) :
    (s.indexPast x).toNat = (s.I.toNat + x.val + 1) % 65536 := by
  rw [State.indexPast, BitVec.toNat_add, BitVec.toNat_ofNat]
  omega

/-! ## Stores from `I` up -/

/-- Each stored byte reads back at its address. -/
theorem State.writeBytes_readByte (s : State) (bs : List Byte) (hl : bs.length ≤ memSize) (k : Nat)
    (hk : k < bs.length) : (s.writeBytes s.I bs).readByte (s.I + BitVec.ofNat 16 k) = bs[k] :=
  s.writeBytes_read s.I bs hl k hk

/-- A cell outside those of the `n` bytes from `I` up keeps its byte when `n` bytes are stored. -/
theorem State.writeBytes_read_of_not_mem_cellsFromI (s : State) (bs : List Byte) {a : Nat}
    (h : a ∉ cellsFromI s bs.length) : (s.writeBytes s.I bs).mem.read a = s.mem.read a :=
  s.writeBytes_read_of_not_mem s.I bs a fun k hk e =>
    h (List.mem_map.2 ⟨k, List.mem_range.2 hk, e⟩)

/-- The three digits at `I`, `I + 1`, `I + 2` after `LD B,Vx`. -/
theorem State.effect_ldBcd_readByte_toNat (s : State) (x : Reg) :
    ((s.effect (.ldBcd x)).readByte s.I).toNat = (s.reg x).toNat / 100 ∧
      ((s.effect (.ldBcd x)).readByte (s.I + 1)).toNat = (s.reg x).toNat / 10 % 10 ∧
      ((s.effect (.ldBcd x)).readByte (s.I + 2)).toNat = (s.reg x).toNat % 10 := by
  have hlen : (decimalDigits (s.reg x)).length = 3 := rfl
  have hread := s.writeBytes_readByte (decimalDigits (s.reg x)) (by rw [hlen]; decide)
  have h0 : (s.effect (.ldBcd x)).readByte s.I = BitVec.ofNat 8 ((s.reg x).toNat / 100) := by
    rw [← BitVec.add_zero s.I]
    exact hread 0 (by omega)
  have h1 : (s.effect (.ldBcd x)).readByte (s.I + 1) = BitVec.ofNat 8 ((s.reg x).toNat / 10 % 10) :=
    hread 1 (by omega)
  have h2 : (s.effect (.ldBcd x)).readByte (s.I + 2) = BitVec.ofNat 8 ((s.reg x).toNat % 10) :=
    hread 2 (by omega)
  have hb : (s.reg x).toNat < 2 ^ 8 := (s.reg x).isLt
  rw [h0, h1, h2]
  simp only [BitVec.toNat_ofNat]
  omega

theorem State.effect_ldBcd_read (s : State) (x : Reg) {a : Nat} (h : a ∉ cellsFromI s 3) :
    (s.effect (.ldBcd x)).mem.read a = s.mem.read a :=
  s.writeBytes_read_of_not_mem_cellsFromI (decimalDigits (s.reg x)) h

/-! ## Register transfers -/

theorem State.effect_storeRegs_readByte (s : State) {x r : Reg} (h : r ≤ x) :
    (s.effect (.storeRegs x)).readByte (s.I + BitVec.ofNat 16 r.val) = s.reg r := by
  have hlen := s.regsUpTo_length x
  have hx := x.isLt
  have hr : r.val ≤ x.val := h
  have hread := s.writeBytes_readByte (s.regsUpTo x) (by rw [hlen]; unfold memSize; omega) r.val
    (by omega)
  exact hread.trans (s.regsUpTo_getElem x r.val _)

theorem State.effect_storeRegs_read (s : State) {x : Reg} {a : Nat}
    (h : a ∉ cellsFromI s (x.val + 1)) : (s.effect (.storeRegs x)).mem.read a = s.mem.read a :=
  s.writeBytes_read_of_not_mem_cellsFromI (s.regsUpTo x) (by rwa [s.regsUpTo_length x])

theorem State.effect_loadRegs_reg (s : State) {x r : Reg} (h : r ≤ x) :
    (s.effect (.loadRegs x)).reg r = s.readByte (s.I + BitVec.ofNat 16 r.val) := by
  have hlen := s.readBytes_length s.I (x.val + 1)
  have hr : r.val ≤ x.val := h
  have hset := s.setRegsFrom_reg 0 (s.readBytes s.I (x.val + 1)) r
  rw [dif_pos (by omega), State.readBytes_getElem] at hset
  exact hset

theorem State.effect_loadRegs_reg_of_lt (s : State) {x r : Reg} (h : x < r) :
    (s.effect (.loadRegs x)).reg r = s.reg r :=
  (s.effect_frame (.loadRegs x)).regs r (by simp [destRegs, regsThrough, h])

end Sys2Proof.Machine

open Sys2Proof Sys2Proof.Machine Sys2Proof.Claims

/-- Settles O40: the effect stores the three digits from `I` up. -/
theorem ldBcdStoresThreeDigits : Obligations.LdBcdStoresThreeDigits := by
  intro x s hreach
  obtain ⟨h0, h1, h2⟩ := s.effect_ldBcd_readByte_toNat x
  have hb : (s.reg x).toNat < 2 ^ 8 := (s.reg x).isLt
  exact ⟨s.effect (.ldBcd x), exec_of_inReach rfl hreach, by omega, by omega, by omega, by omega,
    fun _ => s.effect_ldBcd_read x, s.effect_frame (.ldBcd x)⟩

/-- Settles O41: the effect stores the registers from `I` up and moves `I` past them. -/
theorem storeRegsStoresAndAdvances : Obligations.StoreRegsStoresAndAdvances := by
  intro x s hreach
  exact ⟨s.effect (.storeRegs x), exec_of_inReach rfl hreach,
    fun _ => s.effect_storeRegs_readByte, s.indexPast_toNat x, fun _ => s.effect_storeRegs_read,
    s.effect_frame (.storeRegs x)⟩

/-- Settles O42: the effect loads the bytes from `I` up and moves `I` past them. -/
theorem loadRegsLoadsAndAdvances : Obligations.LoadRegsLoadsAndAdvances := by
  intro x s hreach
  exact ⟨s.effect (.loadRegs x), exec_of_inReach rfl hreach, fun _ => s.effect_loadRegs_reg,
    fun _ => s.effect_loadRegs_reg_of_lt, s.indexPast_toNat x, s.effect_frame (.loadRegs x)⟩

/-- Settles O43: the load reads the cells the store wrote. -/
theorem loadAfterStoreRestoresTheRegisters : Obligations.LoadAfterStoreRestoresTheRegisters := by
  intro x s t u hreach hstore hmem hcfg hI
  obtain rfl : s.effect (.storeRegs x) = t := eq_effect_of_inReach rfl hreach hstore
  have hreach' : inReach u (x.val + 1) := by
    rw [inReach, hcfg, hI, (s.effect_frame (.storeRegs x)).cfg]
    exact hreach
  refine ⟨u.effect (.loadRegs x), exec_of_inReach rfl hreach', fun r hr => ?_, ?_⟩
  · rw [u.effect_loadRegs_reg hr, hI, State.readByte_congr hmem, s.effect_storeRegs_readByte hr]
  · exact congrArg (· + BitVec.ofNat 16 (x.val + 1)) hI

/-- Settles O44: each of the four accesses a span from `I` of 1 to 16 bytes. -/
theorem accessOutOfRangeHaltsBeforeAnyEffect :
    Obligations.AccessOutOfRangeHaltsBeforeAnyEffect := by
  intro x y n s hp
  have hx := x.isLt
  refine ⟨fun hn h => ?_, fun h => ?_, fun h => ⟨?_, ?_⟩⟩
  · have hpos : n.toNat ≠ 0 := fun e => hn (BitVec.eq_of_toNat_eq e)
    have hlt : n.toNat < 2 ^ 4 := n.isLt
    exact exec_of_outOfReach hp rfl (by omega) (by omega) h
  · exact exec_of_outOfReach hp rfl (by decide) (by decide) h
  · exact exec_of_outOfReach hp rfl (Nat.succ_pos x.val) (by omega) h
  · exact exec_of_outOfReach hp rfl (Nat.succ_pos x.val) (by omega) h

/-- Settles O45: the fetch reads the first two bytes of the store. -/
theorem storeIsSeenByTheNextFetch : Obligations.StoreIsSeenByTheNextFetch := by
  intro x s t hx hreach hpc hstore
  obtain rfl : s.effect (.storeRegs x) = t := eq_effect_of_inReach rfl hreach hstore
  have hpc' : (s.effect (.storeRegs x)).pc = s.I :=
    ((s.effect_frame (.storeRegs x)).pc (by simp [effectParts])).trans hpc
  have h0 : (s.effect (.storeRegs x)).readByte s.I = s.reg 0 := by
    simpa using s.effect_storeRegs_readByte (Fin.zero_le x)
  have h1 : (s.effect (.storeRegs x)).readByte (s.I + 1) = s.reg 1 :=
    s.effect_storeRegs_readByte (r := 1) hx
  rw [State.fetchWord, hpc', h0, h1, wordOfBytes_toNat]

end

section

namespace Sys2Proof.Machine

open Claims

/-! ## The points of a sprite -/

/-- The points under a sprite's set bits are those the statement's own description covers. -/
theorem mem_spritePoints_iff (row : Nat → Byte) (rows : List Byte) (xs ys : Nat) (p : Point)
    (h : ∀ r (hr : r < rows.length), rows[r] = row r) :
    p ∈ spritePoints xs ys rows ↔ rowsCover row xs ys rows.length p = true := by
  rw [mem_spritePoints, rowsCover, Bool.and_eq_true, decide_eq_true_iff]
  constructor
  · rintro ⟨r, hr, hy, c, hc, hx, hbit⟩
    have hrow : p.2.val - ys = r := by omega
    have hcol : p.1.val - xs = c := by omega
    exact ⟨by omega, by rwa [hrow, hcol, ← h r hr]⟩
  · rintro ⟨⟨hx, hx', hy, hy'⟩, hbit⟩
    have hr : p.2.val - ys < rows.length := by omega
    exact ⟨p.2.val - ys, hr, by omega, p.1.val - xs, by omega, by omega, by rwa [h _ hr]⟩

/-- Rows that agree below the height cover the same points. -/
theorem rowsCover_congr {row row' : Nat → Byte} {n : Nat} (h : ∀ k < n, row k = row' k)
    (xs ys : Nat) (p : Point) : rowsCover row xs ys n p = rowsCover row' xs ys n p := by
  unfold rowsCover
  by_cases hp : xs ≤ p.1.val ∧ p.1.val < xs + 8 ∧ ys ≤ p.2.val ∧ p.2.val < ys + n
  · rw [h _ (by omega)]
  · rw [decide_eq_false hp, Bool.false_and, Bool.false_and]

/-- The points `DRW Vx,Vy,n` draws, in order. -/
def State.drawnPoints (s : State) (x y : Reg) (n : Nat) : List Point :=
  spritePoints (s.spriteStart x y).1 (s.spriteStart x y).2 (s.readBytes s.I n)

/-- Whether `DRW Vx,Vy,n` draws a point: the start is latched before anything is written. -/
def State.drawCovers (s : State) (x y : Reg) (n : Nat) (p : Point) : Bool :=
  spriteCovers s ((s.reg x).toNat % 64) ((s.reg y).toNat % 32) n p

theorem State.drawSprite_eq_foldl (s : State) (x y : Reg) (n : Nat) :
    s.drawSprite x y n = (s.drawnPoints x y n).foldl State.xorPixel (s.setReg flagReg 0) := rfl

theorem State.drawnPoints_nodup (s : State) (x y : Reg) (n : Nat) : (s.drawnPoints x y n).Nodup :=
  spritePoints_nodup _ _ _

theorem State.mem_drawnPoints (s : State) (x y : Reg) (n : Nat) (p : Point) :
    p ∈ s.drawnPoints x y n ↔ s.drawCovers x y n p = true := by
  have hrows := mem_spritePoints_iff (fun k => s.readByte (s.I + BitVec.ofNat 16 k))
    (s.readBytes s.I n) (s.spriteStart x y).1 (s.spriteStart x y).2 p
    fun r hr => s.readBytes_getElem s.I n r hr
  rw [s.readBytes_length] at hrows
  exact hrows

/-! ## A drawn sprite -/

/-- Exactly the covered pixels are inverted. -/
theorem State.drawSprite_pixel (s : State) (x y : Reg) (n : Nat) (p : Point) :
    (s.drawSprite x y n).pixel p = (s.pixel p ^^ s.drawCovers x y n p) := by
  rw [State.drawSprite_eq_foldl, State.foldl_xorPixel_pixel _ _ (s.drawnPoints_nodup x y n),
    State.setReg_pixel, Bool.eq_iff_iff.2 (decide_eq_true_iff.trans (s.mem_drawnPoints x y n p))]

/-- The flag is a byte 0 or 1: whether a covered pixel was on. -/
theorem State.drawSprite_flag (s : State) (x y : Reg) (n : Nat) :
    (s.drawSprite x y n).reg 15 =
      if ∃ p, s.pixel p = true ∧ s.drawCovers x y n p = true then 1 else 0 := by
  have hflag := State.foldl_xorPixel_flag (s.setReg flagReg 0) _ (s.drawnPoints_nodup x y n)
  rw [State.setReg_reg_self] at hflag
  refine hflag.trans (if_congr (exists_congr fun p => ?_) rfl rfl)
  rw [s.mem_drawnPoints, State.setReg_pixel, and_comm]

theorem State.drawSprite_flag_eq_one (s : State) (x y : Reg) (n : Nat) :
    (s.drawSprite x y n).reg 15 = 1 ↔ ∃ p, s.pixel p = true ∧ s.drawCovers x y n p = true := by
  rw [State.drawSprite_flag]
  split <;> simp_all

theorem State.drawSprite_flag_eq_zero (s : State) (x y : Reg) (n : Nat) :
    (s.drawSprite x y n).reg 15 = 0 ↔ ∀ p, s.pixel p = true → s.drawCovers x y n p = false := by
  rw [State.drawSprite_flag]
  split <;> simp_all

theorem State.xorPixel_display (s : State) (p : Point) :
    (s.xorPixel p).display = s.display ++ [.getPixel p, .setPixel p (!s.pixel p)] := by
  unfold State.xorPixel
  split <;> simp

/-- Drawing distinct points issues one transaction of each kind per point. -/
theorem State.foldl_xorPixel_display (s : State) (ps : List Point) (h : ps.Nodup) :
    (ps.foldl State.xorPixel s).display =
      s.display ++ ps.flatMap fun p => [.getPixel p, .setPixel p (!s.pixel p)] := by
  induction ps generalizing s with
  | nil => simp
  | cons p ps ih =>
    rw [List.nodup_cons] at h
    have hother : ∀ q ∈ ps, [DisplayOp.getPixel q, .setPixel q (!(s.xorPixel p).pixel q)] =
        [.getPixel q, .setPixel q (!s.pixel q)] := fun q hq => by
      rw [State.xorPixel_pixel, if_neg]
      rintro rfl
      exact h.1 hq
    rw [List.foldl_cons, ih _ h.2, State.xorPixel_display, List.flatMap_cons, List.append_assoc,
      List.flatMap_congr hother]

theorem State.drawSprite_display (s : State) (x y : Reg) (n : Nat) :
    (s.drawSprite x y n).display = s.display ++
      (s.drawnPoints x y n).flatMap fun p => [.getPixel p, .setPixel p (!s.pixel p)] :=
  State.foldl_xorPixel_display (s.setReg flagReg 0) _ (s.drawnPoints_nodup x y n)

end Sys2Proof.Machine

open Sys2Proof Sys2Proof.Machine Sys2Proof.Claims

/-- Settles O31: the effect draws the sprite, whose pixels, flag and frame are the rules above. -/
theorem drwXorsTheSprite : Obligations.DrwXorsTheSprite := by
  intro x y n s hreach
  exact ⟨s.drawSprite x y n.toNat, exec_of_inReach rfl hreach, s.drawSprite_pixel x y n.toNat,
    (s.drawSprite_flag_eq_one x y n.toNat).2, (s.drawSprite_flag_eq_zero x y n.toNat).2,
    s.drawSprite_frame x y n.toNat⟩

/-- Settles O32: with no rows there is no point to draw, and only the cleared flag is left. -/
theorem drwZeroRowsClearsTheFlag : Obligations.DrwZeroRowsClearsTheFlag :=
  fun _ _ s => ⟨s.setReg flagReg 0, rfl, s.setReg_reg_self flagReg 0, s.setReg_frame flagReg 0⟩

/-- Settles O34: the list is that of the drawn points. -/
theorem drwIssuesOneGetAndOneSetPerBit : Obligations.DrwIssuesOneGetAndOneSetPerBit := by
  intro x y n s hreach
  exact ⟨s.drawSprite x y n.toNat, s.drawnPoints x y n.toNat, exec_of_inReach rfl hreach,
    s.drawnPoints_nodup x y n.toNat, s.mem_drawnPoints x y n.toNat,
    s.drawSprite_display x y n.toNat⟩

/-- Settles O33: both draws cover the same points, so each pixel is inverted twice or not at all;
the first flag sees the pixels that were on, the second those the first turned on. -/
theorem doubleDrawRestoresThePixels : Obligations.DoubleDrawRestoresThePixels := by
  intro x y x' y' n s t u hdraw hrun hpix hcfg hI hx hy hbytes
  obtain ⟨a, -, -, rfl⟩ | ⟨hrange, rfl⟩ := exec_cases hdraw
  · cases hrun
  have hrange' : ∀ a ∈ u.accesses (.drw x' y' n), outOfRange u.cfg.addrPolicy a = false := by
    rw [hcfg, State.accesses, hI]
    exact hrange
  have hcovers (p : Point) : u.drawCovers x' y' n.toNat p = s.drawCovers x y n.toNat p := by
    rw [State.drawCovers, State.drawCovers, hx, hy, spriteCovers, hI]
    exact rowsCover_congr hbytes _ _ p
  have hfirst (p : Point) : (s.effect (.drw x y n)).pixel p =
      (s.pixel p ^^ s.drawCovers x y n.toNat p) := s.drawSprite_pixel x y n.toNat p
  have hu (p : Point) : u.pixel p = (s.pixel p ^^ s.drawCovers x y n.toNat p) :=
    (State.pixel_congr hpix p).trans (hfirst p)
  refine ⟨u.drawSprite x' y' n.toNat, exec_of_inRange hrange', fun p => ?restored, ?firstFlag,
    ?secondFlag, ?secondFlagZero⟩
  case restored =>
    rw [State.drawSprite_pixel, hcovers, hu, Bool.xor_assoc, Bool.xor_self, Bool.xor_false]
  case firstFlag =>
    refine (s.drawSprite_flag_eq_one x y n.toNat).trans (exists_congr fun p => ?_)
    rw [hfirst]
    cases s.pixel p <;> simp
  case secondFlag =>
    refine (u.drawSprite_flag_eq_one x' y' n.toNat).trans (exists_congr fun p => ?_)
    rw [hcovers, hu, hfirst]
    cases s.pixel p <;> simp
  case secondFlagZero =>
    refine (u.drawSprite_flag_eq_zero x' y' n.toNat).trans (forall_congr' fun p => ?_)
    rw [hcovers, hu, hfirst]
    cases s.pixel p <;> simp

end


section

namespace Sys2Proof.Machine

open Claims

/-! ## What the whole instruction set leaves unchanged -/

/-- An instruction that accesses an address may halt and make a record. -/
theorem run_trace_subset_destParts {s : State} {i : Instr} {a : Word} (h : a ∈ s.accesses i) :
    [.run, .trace] ⊆ destParts i := by
  cases i with
  | drw | ldBcd | storeRegs | loadRegs => simp [destParts]
  | _ => exact absurd h List.not_mem_nil

theorem effectParts_subset_destParts (i : Instr) : effectParts i ⊆ destParts i := by
  cases i with
  | drw | ldBcd | storeRegs | loadRegs => simp [effectParts, destParts]
  | _ => exact List.Subset.refl _

/-- Every instruction keeps the frame the spec names for it. -/
theorem exec_frame {i : Instr} {s t : State} (h : exec i s = .next t) :
    Frame (destRegs i) (destParts i) s t := by
  obtain ⟨a, ha, -, rfl⟩ | ⟨-, rfl⟩ := exec_cases h
  · exact (s.addressFault_frame a).mono (List.nil_subset _) (run_trace_subset_destParts ha)
  · exact (s.effect_frame i).mono (List.Subset.refl _) (effectParts_subset_destParts i)

/-- A call changes no stack entry but the one at `sp`. -/
theorem State.callTo_stack_of_ne (s : State) (w : Word) {k : Fin 16} (h : k.val ≠ s.sp.val) :
    (s.callTo w).stack[k] = s.stack[k] := by
  by_cases hroom : s.sp.val < 16
  · rw [State.callTo_stack_getElem hroom, if_neg h.symm]
  · rw [State.callTo_of_full (by omega)]
    rfl

/-! ## The streams of a step -/

/-- An effect only adds to the display record. -/
theorem State.effect_display (s : State) (i : Instr) :
    ∃ out, (s.effect i).display = s.display ++ out := by
  cases i with
  | cls => exact ⟨[.clear], rfl⟩
  | drw x y n => exact ⟨_, s.drawSprite_display x y n.toNat⟩
  | _ =>
    exact ⟨[], ((s.effect_frame _).display (by simp [effectParts, destParts])).trans
      (List.append_nil _).symm⟩

/-- Both streams of `t` are those of `s` with something added, the report stream by at most one
record. -/
def StreamsGrow (s t : State) : Prop :=
  (∃ new, t.trace = s.trace ++ new ∧ new.length ≤ 1) ∧ ∃ out, t.display = s.display ++ out

theorem StreamsGrow.of_report {s t : State} (r : Report) (htrace : t.trace = s.trace ++ [r])
    (hdisplay : t.display = s.display) : StreamsGrow s t :=
  ⟨⟨[r], htrace, le_rfl⟩, [], by simp [hdisplay]⟩

theorem StreamsGrow.of_display {s t : State} (out : List DisplayOp) (htrace : t.trace = s.trace)
    (hdisplay : t.display = s.display ++ out) : StreamsGrow s t :=
  ⟨⟨[], by simp [htrace], by simp⟩, out, hdisplay⟩

theorem State.instrStep_streamsGrow {s t : State} (h : s.instrStep = .next t) :
    StreamsGrow s t := by
  obtain ⟨a, -, rfl⟩ | ⟨-, ⟨a, -, rfl⟩ | ⟨i, rfl⟩ | rfl⟩ := State.instrStep_outcome h
  · exact .of_report (.addressFault a) rfl rfl
  · exact .of_report (.addressFault a) rfl rfl
  · obtain ⟨new, htrace, hnew, -⟩ := s.advance.effect_trace i
    exact ⟨⟨new, htrace, hnew⟩, s.advance.effect_display i⟩
  · exact .of_report (.unknownInstruction s.fetchWord) rfl rfl

/-! ## Under wrap12 (20_memory.md R49) -/

theorem inReach_of_wrap12 {s : State} (h : s.cfg.addrPolicy = .wrap12) (n : Nat) : inReach s n :=
  fun hp => by simp [h] at hp

theorem State.readByte_add (s : State) (a : Word) (k : Nat) :
    s.readByte (a + BitVec.ofNat 16 k) = s.mem.read ((a.toNat + k) % 4096) := by
  rw [State.readByte, cellOf_add]
  rfl

/-- Under wrap12 no turn of the core halts it or records an AddressFault. -/
theorem State.coreTurn_of_wrap12 {s t : State} (hp : s.cfg.addrPolicy = .wrap12)
    (h : s.coreTurn = .next t) :
    (∀ r, t.run ≠ .halted r) ∧ ∀ a, t.trace ≠ s.trace ++ [.addressFault a] := by
  obtain ⟨hr, h⟩ | ⟨kx, hr, rfl⟩ := State.coreTurn_cases h
  · obtain ⟨a, ha, -⟩ | ⟨-, ⟨a, ha, -⟩ | ⟨i, rfl⟩ | rfl⟩ := State.instrStep_outcome h
    · simp [hp] at ha
    · simp [hp] at ha
    · obtain ⟨new, htrace, -, hnew⟩ := s.advance.effect_trace i
      refine ⟨fun r => ?_, fun a ha => hnew a ?_⟩
      · obtain h | ⟨x, h⟩ := s.advance.effect_run i <;> rw [h]
        · simp [hr]
        · simp
      · rw [List.append_cancel_left (htrace.symm.trans ha)]
        exact List.mem_singleton_self _
    · exact ⟨by simp [unknownInstruction, hr], by simp [unknownInstruction]⟩
  · exact ⟨by simp [hr], by simp⟩

end Sys2Proof.Machine

open Sys2Proof Sys2Proof.Machine Sys2Proof.Claims

/-- Settles O52: the frame of every effect and of the AddressFault, and of the operations that hold
many cells, each with the cells it may change. -/
theorem everyInstructionKeepsItsFrame : Obligations.EveryInstructionKeepsItsFrame := by
  intro i s t h
  refine ⟨exec_frame h, ?bcd, ?store, ?ret, ?call, ?draw⟩ <;>
    obtain ⟨a, -, -, rfl⟩ | ⟨-, rfl⟩ := exec_cases h
  case bcd.inl | store.inl => exact fun _ _ _ _ => rfl
  case bcd.inr =>
    rintro x rfl a ha
    exact s.effect_ldBcd_read x ha
  case store.inr =>
    rintro x rfl a ha
    exact s.effect_storeRegs_read ha
  case ret.inl => exact fun _ => rfl
  case ret.inr =>
    rintro rfl
    exact s.returnFrom_stack
  case call.inl => exact fun _ _ _ _ => rfl
  case call.inr =>
    rintro nnn rfl k hk
    exact s.callTo_stack_of_ne _ hk
  case draw.inl => exact fun _ _ _ _ _ _ => rfl
  case draw.inr =>
    rintro x y n rfl p hp
    have hcovers : s.drawCovers x y n.toNat p = false := hp
    rw [State.effect, State.drawSprite_pixel, hcovers, Bool.xor_false]

/-- Settles O53: an instruction step makes at most one record, and no other turn makes any; what a
turn issues is added at the end. -/
theorem streamsAreAppendOnly : Obligations.StreamsAreAppendOnly := by
  intro s t h
  show StreamsGrow s t
  obtain ⟨l, hturn⟩ := step_outcome h
  obtain ⟨-, h⟩ | rfl | rfl | rfl | ⟨held, rfl⟩ | ⟨kx, b, -, rfl⟩ := hturn
  · exact State.instrStep_streamsGrow (s := { s with schedule := l }) h
  · exact .of_display [] rfl (List.append_nil _).symm
  · exact .of_display [.present] rfl rfl
  · exact .of_display [] rfl (List.append_nil _).symm
  · exact .of_display [] rfl (List.append_nil _).symm
  · exact .of_display [] rfl (List.append_nil _).symm

/-- Settles O54: the cell of an address is the address modulo 4096, and every address exists. -/
theorem wrapPolicyNeverFaults : Obligations.WrapPolicyNeverFaults := by
  intro s hp
  refine ⟨fun _ => rfl, fun a b c => ?write, s.fetchWord_toNat, fun x => ?store, fun x => ?load,
    fun x => ?bcd, fun x y n => ?draw, fun t rest hmoves h => ?turn⟩
  case write => exact (Memory.read_write _ _ _ _).trans (if_congr eq_comm rfl rfl)
  case store =>
    refine ⟨s.effect (.storeRegs x), exec_of_inReach rfl (inReach_of_wrap12 hp _), fun r hr => ?_⟩
    rw [← s.effect_storeRegs_readByte hr, State.readByte_add]
  case load =>
    refine ⟨s.effect (.loadRegs x), exec_of_inReach rfl (inReach_of_wrap12 hp _), fun r hr => ?_⟩
    rw [s.effect_loadRegs_reg hr, State.readByte_add]
  case bcd =>
    obtain ⟨h0, h1, h2⟩ := s.effect_ldBcd_readByte_toNat x
    refine ⟨s.effect (.ldBcd x), exec_of_inReach rfl (inReach_of_wrap12 hp _), h0, ?_, ?_⟩
    · rw [← h1]
      exact congrArg BitVec.toNat (State.readByte_add _ s.I 1).symm
    · rw [← h2]
      exact congrArg BitVec.toNat (State.readByte_add _ s.I 2).symm
  case draw =>
    refine ⟨s.drawSprite x y n.toNat, exec_of_inReach rfl (inReach_of_wrap12 hp _), fun p => ?_⟩
    rw [State.drawSprite_pixel, State.drawCovers, spriteCovers,
      rowsCover_congr fun k _ => s.readByte_add s.I k]
  case turn =>
    rw [step_of_coreMoves hmoves (step_cases h).1] at h
    exact State.coreTurn_of_wrap12 (s := { s with schedule := rest }) hp h

end

section

namespace Sys2Proof.Machine

/-! ## Loads (70_reset_and_hazards.md R260, R261) -/

/-- The memory a load leaves: the font, then the image, over the fill. -/
def loadedMemory (fill : State) (font : Vector Byte 80) (image : List Byte) : Memory :=
  (fill.mem.writeList 0 font.toList).writeList progBase image

/-- The state a load of an image that fits leaves. -/
def loadedState (fill : State) (font : Vector Byte 80) (image : List Byte) : State :=
  { fill with
    pc := BitVec.ofNat 16 progBase
    sp := 0
    run := .running
    trace := []
    display := []
    mem := loadedMemory fill font image }

variable (fill : State) (font : Vector Byte 80) {image : List Byte}

theorem State.load_of_fits (h : 1 ≤ image.length) (h' : image.length ≤ progMax) :
    fill.load font image = .ok (loadedState fill font image) := by
  rw [State.load, if_neg (by omega), if_neg (by omega)]
  rfl

/-- Everything a load that succeeds can do. -/
theorem State.load_cases {fill s : State} {font : Vector Byte 80}
    (h : fill.load font image = .ok s) :
    image.length ≤ progMax ∧ s = loadedState fill font image := by
  unfold State.load at h
  split at h
  · cases h
  split at h
  · cases h
  · injection h with h
    exact ⟨by omega, h.symm⟩

theorem loadedMemory_wf (hm : fill.mem.wf) (h : image.length ≤ progMax) :
    (loadedMemory fill font image).wf := by
  refine Memory.writeList_wf _ _ _ ?_ (Memory.writeList_wf _ _ _ ?_ hm)
  · unfold progMax memSize at h
    unfold memSize progBase at *
    omega
  · simp [memSize]

theorem loadedMemory_read_font (k : Fin 80) : (loadedMemory fill font image).read k = font[k] := by
  rw [loadedMemory, Memory.read_writeList, dif_neg (by unfold progBase; omega),
    Memory.read_writeList, dif_pos (by simp)]
  simp

theorem loadedMemory_read_image {k : Nat} (h : k < image.length) :
    (loadedMemory fill font image).read (0x200 + k) = image[k] := by
  have hk : 0x200 + k - progBase = k := by unfold progBase; omega
  rw [loadedMemory, Memory.read_writeList, dif_pos ⟨Nat.le_add_right _ _, hk.symm ▸ h⟩]
  simp only [hk]

theorem loadedMemory_read_other {a : Nat} (h : (80 ≤ a ∧ a < 0x200) ∨ 0x200 + image.length ≤ a) :
    (loadedMemory fill font image).read a = fill.mem.read a := by
  rw [loadedMemory, Memory.read_writeList, dif_neg (by unfold progBase; omega),
    Memory.read_writeList, dif_neg (by simp; omega)]

end Sys2Proof.Machine

open Sys2Proof Sys2Proof.Machine Sys2Proof.Claims

/-- Settles O58: a load writes memory inside its bounds, and sets the trace, the run state and `pc`
itself. -/
theorem resetAndLoadMeetTheInvariants : Obligations.ResetAndLoadMeetTheInvariants := by
  have hreset : State.reset.memCanonical := ⟨.nil, by simp [State.reset]⟩
  refine ⟨hreset, State.faultIsHalt_of_none (by simp [State.reset]) (by simp [State.reset]),
    fun _ => by decide, fun fill s font image hmem hpc h => ?_⟩
  obtain ⟨hlen, rfl⟩ := State.load_cases h
  have hstart : (BitVec.ofNat 16 progBase).toNat ≤ 0x10FE := by decide
  exact ⟨loadedMemory_wf fill font hmem hlen,
    State.faultIsHalt_of_none (by simp [loadedState]) (by simp [loadedState]),
    fun hp => ⟨hstart, (hpc hp).2⟩⟩

/-- Settles O59: each item of the reset state, by its definition. -/
theorem resetStateIsTheTable : Obligations.ResetStateIsTheTable := by
  refine ⟨rfl, rfl, rfl, fun r => ?_, rfl, rfl, rfl, fun k => ?_, fun p => ?_, rfl, fun _ _ => rfl,
    fun a ha => ?_⟩
  · simp [State.reg, State.reset]
  · simp [State.reset]
  · simp [State.pixel, State.reset]
  · have hlen : Config.defaultFont.length = 80 := rfl
    exact List.getD_eq_default _ _ (hlen ▸ ha)

/-- Settles O60: the length decides which load it is, and the memory of a load reads as the image,
the font or the fill by its address. -/
theorem loadPlacesFontAndImage : Obligations.LoadPlacesFontAndImage := by
  intro fill font image
  refine ⟨fun h => by rw [State.load, if_pos h], fun h => ?tooLarge, fun h h' => ?fits⟩
  case tooLarge => rw [State.load, if_neg (by omega), if_pos (by exact h)]
  case fits =>
    refine ⟨loadedState fill font image, State.load_of_fits fill font h h', rfl, rfl, rfl, rfl, rfl,
      rfl, rfl, rfl, rfl, rfl, rfl, rfl, rfl, rfl, rfl, loadedMemory_read_font fill font,
      fun k hk => loadedMemory_read_image fill font hk,
      fun a => loadedMemory_read_other fill font, ?_⟩
    rintro b₀ b₁ bs rfl
    rw [State.fetchWord_toNat]
    have h0 := loadedMemory_read_image fill font (image := b₀ :: b₁ :: bs) (k := 0) (by simp)
    have h1 := loadedMemory_read_image fill font (image := b₀ :: b₁ :: bs) (k := 1) (by simp)
    exact congrArg₂ (fun hi lo : Byte => hi.toNat * 256 + lo.toNat) h0 h1

end
